-- ==== Sys2Proof/Config.lean ====
section
/-! DEFINITION. What one implementation of the engine fixes (00_scope.md rule R7), and the one choice the
spec leaves open with no value. Nothing here changes while the machine runs. -/

namespace Sys2Proof.Config

/-- `WORD_BITS` (R7, decided D1): the width of a memory cell, of `rb`, and of an input or output value.
`Sys2Proof.Word` is written with the same literal. -/
abbrev wordBits : Nat := 64

/-- `PC_BITS` (R7, decided D5): the width of the program counter, equal to `WORD_BITS`. -/
abbrev pcBits : Nat := wordBits

/-- The open parameters of R7: each machine has its own, and no step and no host command changes them.
They stand in a structure so that a statement holds for every value of them. -/
structure Params where
  /-- `MEM_LIMIT`: how many cells are addressable. Legal addresses are `0 .. memLimit - 1` (R7, D3). -/
  memLimit : Nat
  /-- `INPUT_QUEUE_CAPACITY`: the most entries the input queue holds; `none` is unbounded (R7, D13). -/
  queueCapacity : Option Nat
  deriving DecidableEq, Repr

/-- The defaults of R7: `MEM_LIMIT = 2^(WORD_BITS-1)`, an unbounded input queue. -/
def defaultParams : Params := { memLimit := 2 ^ 63, queueCapacity := none }

/-- Free value (log entry 6). R95 says a PEEK at a non-address is refused and R97 lists two reasons that could be
meant; the spec does not say which. `true`: `BadSelector`; `false`: `BadAddress`. No body, so nothing can
rest on either. -/
opaque peekNonAddressIsBadSelector : Bool

end Sys2Proof.Config
end

