-- ==== Sys2Proof/Word.lean ====
section
/-! DEFINITION. The word of R8: a signed integer of `WORD_BITS` bits, carried as 64 bits of two's complement
(R11). Every rule reads a word as the integer `toInt`; no rule looks at one of its bits. -/

namespace Sys2Proof

/-- A word (R7, R8, R11): `WORD_BITS = 64` bits of two's complement; its value is `BitVec.toInt`. -/
abbrev Word := BitVec 64

/-- `WMIN`, the least word (R7). -/
def wMin : Int := -9223372036854775808

/-- `WMAX`, the greatest word (R7). -/
def wMax : Int := 9223372036854775807

end Sys2Proof
end

