-- ==== Sys2Proof/Syntax.lean ====
section
/-! DEFINITION. The ten instructions of R65. An `Instr` is what the decoder reads from the instruction word
alone: the operation and the addressing mode of each parameter. The parameter words are not part of it; they
stand in the cells after the instruction word and are read while the operands are resolved (R68, R69, R90), so
that a missing parameter cell faults in the order R156 gives (log entry 3). -/

namespace Sys2Proof

/-- The addressing modes (R66). -/
inductive Mode where
  /-- Mode 0: the parameter word is the address of the operand. -/
  | position
  /-- Mode 1: the parameter word is the operand. -/
  | immediate
  /-- Mode 2: `rb` plus the parameter word is the address of the operand. -/
  | relative
  deriving DecidableEq, Repr

/-- The ten operations (R65), one constructor per row of the opcode table, with the mode of each parameter in
order: `a`, `b` are read parameters, `dst` a write parameter. -/
inductive Instr where
  /-- Opcode 1, `add a, b, dst` (R100). -/
  | add (a b dst : Mode)
  /-- Opcode 2, `mul a, b, dst` (R101). -/
  | mul (a b dst : Mode)
  /-- Opcode 3, `in dst` (R110). -/
  | inp (dst : Mode)
  /-- Opcode 4, `out a` (R111). -/
  | out (a : Mode)
  /-- Opcode 5, `jt a, b` (R120). -/
  | jt (a b : Mode)
  /-- Opcode 6, `jf a, b` (R121). -/
  | jf (a b : Mode)
  /-- Opcode 7, `lt a, b, dst` (R130). -/
  | lt (a b dst : Mode)
  /-- Opcode 8, `eq a, b, dst` (R131). -/
  | eq (a b dst : Mode)
  /-- Opcode 9, `arb a` (R140). -/
  | arb (a : Mode)
  /-- Opcode 99, `hlt` (R141). -/
  | hlt
  deriving DecidableEq, Repr

end Sys2Proof
end

