-- ==== Sys2Proof/WellFormed.lean ====
section
/-! DEFINITION. Which instructions exist: a write parameter is never in immediate mode (R67). Every mode is
legal for a read parameter, so this is the only check. -/

namespace Sys2Proof

/-- Legal for a write parameter: modes 0 and 2 (R67, "mode 1 is never a legal write target"). -/
def Mode.writable : Mode → Bool
  | .position => true
  | .immediate => false
  | .relative => true

/-- The instruction has an encoding: its write parameter, if it has one, is in a mode that names a cell. -/
def Instr.wellFormed : Instr → Bool
  | .add _ _ dst => dst.writable
  | .mul _ _ dst => dst.writable
  | .inp dst => dst.writable
  | .out _ => true
  | .jt _ _ => true
  | .jf _ _ => true
  | .lt _ _ dst => dst.writable
  | .eq _ _ dst => dst.writable
  | .arb _ => true
  | .hlt => true

end Sys2Proof
end

