-- ==== Sys2Proof/Decode.lean ====
section
/-! DEFINITION. The instruction word read in base 10 (30_encoding.md): decoding of any word to an instruction
or to a rejection by name, and the encoder that writes the canonical word (R74). -/

namespace Sys2Proof

/-- `digit(w, k)` of R9, for a non-negative value: digit 0 is the units digit. -/
def digit (n k : Nat) : Nat := n / 10 ^ k % 10

/-- Why a word is no instruction (R71). The value and the parameter are those the fault records (R151, R152). -/
inductive DecodeError where
  /-- `IllegalOpcode`: the word is negative (value: the word) or its two low digits select no operation
  (value: those digits). -/
  | illegalOpcode (value : Int)
  /-- `IllegalAddressingMode`: the mode digit of parameter `param` is illegal for its kind (value: the digit). -/
  | illegalMode (param : Fin 4) (value : Int)
  deriving DecidableEq, Repr

/-- The mode a digit stands for (R66); digits 3 to 9 are illegal for every parameter. -/
def Mode.ofDigit : Nat → Option Mode
  | 0 => some .position
  | 1 => some .immediate
  | 2 => some .relative
  | _ => none

/-- The digit that selects a mode (R66). -/
def Mode.toDigit : Mode → Nat
  | .position => 0
  | .immediate => 1
  | .relative => 2

/-- The mode of read parameter `k` (R62, R67, R89): `digit(w, k + 1)`, one of 0, 1, 2. -/
def readMode (n : Nat) (k : Fin 4) : Except DecodeError Mode :=
  match Mode.ofDigit (digit n (k.val + 1)) with
  | some m => .ok m
  | none => .error (.illegalMode k (digit n (k.val + 1)))

/-- The mode of write parameter `k` (R62, R67, R89): `digit(w, k + 1)`, one of 0, 2. -/
def writeMode (n : Nat) (k : Fin 4) : Except DecodeError Mode :=
  match Mode.ofDigit (digit n (k.val + 1)) with
  | some m => if m.writable then .ok m else .error (.illegalMode k (digit n (k.val + 1)))
  | none => .error (.illegalMode k (digit n (k.val + 1)))

/-- The three modes of `op a, b, dst`, in increasing parameter order (R89: the lowest illegal one is reported). -/
def threeModes (n : Nat) (make : Mode → Mode → Mode → Instr) : Except DecodeError Instr := do
  let a ← readMode n 1
  let b ← readMode n 2
  let dst ← writeMode n 3
  .ok (make a b dst)

/-- The two modes of a jump. -/
def twoModes (n : Nat) (make : Mode → Mode → Instr) : Except DecodeError Instr := do
  let a ← readMode n 1
  let b ← readMode n 2
  .ok (make a b)

/-- Decoding of a non-negative value (R65, R88, R89). Digits that no parameter uses are not looked at (R64). -/
def decodeNat (n : Nat) : Except DecodeError Instr :=
  match n % 100 with
  | 1 => threeModes n .add
  | 2 => threeModes n .mul
  | 3 => (writeMode n 1).map .inp
  | 4 => (readMode n 1).map .out
  | 5 => twoModes n .jt
  | 6 => twoModes n .jf
  | 7 => threeModes n .lt
  | 8 => threeModes n .eq
  | 9 => (readMode n 1).map .arb
  | 99 => .ok .hlt
  | op => .error (.illegalOpcode op)

/-- The decoder (R61 to R67, R88, R89): total on words; a negative word is rejected before any digit is taken
(R63). -/
def decode (w : Word) : Except DecodeError Instr :=
  if w.toInt < 0 then .error (.illegalOpcode w.toInt) else decodeNat w.toInt.toNat

/-- The opcode that selects the operation (R65). -/
def Instr.opcode : Instr → Nat
  | .add _ _ _ => 1
  | .mul _ _ _ => 2
  | .inp _ => 3
  | .out _ => 4
  | .jt _ _ => 5
  | .jf _ _ => 6
  | .lt _ _ _ => 7
  | .eq _ _ _ => 8
  | .arb _ => 9
  | .hlt => 99

/-- The modes of the parameters, parameter 1 first. -/
def Instr.modes : Instr → List Mode
  | .add a b dst => [a, b, dst]
  | .mul a b dst => [a, b, dst]
  | .inp dst => [dst]
  | .out a => [a]
  | .jt a b => [a, b]
  | .jf a b => [a, b]
  | .lt a b dst => [a, b, dst]
  | .eq a b dst => [a, b, dst]
  | .arb a => [a]
  | .hlt => []

/-- How many cells the instruction occupies: its word and one cell a parameter (R60, R73). -/
def Instr.length (i : Instr) : Nat := i.modes.length + 1

/-- The mode digits as one number, parameter 1 in the units place. -/
def modeDigits : List Mode → Nat
  | [] => 0
  | m :: ms => m.toDigit + 10 * modeDigits ms

/-- The canonical instruction word (R74): `opcode + 100*m1 + 1000*m2 + 10000*m3`. -/
def encode (i : Instr) : Word := BitVec.ofNat 64 (i.opcode + 100 * modeDigits i.modes)

/-- The cells of an instruction with its parameter words (R60). -/
def encodeCells (i : Instr) (parameters : List Word) : List Word := encode i :: parameters

/-- The decoder on a word of the opcode table: bits 63..0 of `w` are the instruction word, the parameter cells'
bits follow, and bits above `nbits` are 0. Only the instruction word is decoded. -/
def decodeTableWord (nbits w : Nat) : Option Instr :=
  match decode (BitVec.ofNat 64 (w % 2 ^ nbits)) with
  | .ok i => some i
  | .error _ => none

end Sys2Proof
end

