-- ==== Sys2Proof/Machine/State.lean ====
section
/-! DEFINITION. The machine's state as plain data: the architectural state of R20, the parameters of R7, and the
host's side of the command interface of R81. -/

namespace Sys2Proof.Machine

open Sys2Proof

/-- Memory (R25, R40): address and word pairs, addresses strictly rising, no pair whose word is `Memory.unlisted`.
The cell is the smallest addressable unit (R45), so a pair holds a word (log entry 2). -/
abbrev Memory := List (Nat × Word)

/-- What an address that no pair lists holds (R41, R42): 0. -/
def Memory.unlisted : Word := 0

/-- The canonical form, for addresses from `lowest` up. -/
def Memory.wfFrom (lowest : Nat) : Memory → Bool
  | [] => true
  | (a, v) :: m => decide (lowest ≤ a) && (decide (v ≠ Memory.unlisted) && Memory.wfFrom (a + 1) m)

/-- The canonical form: addresses strictly rising, no word equal to what an unlisted address holds. -/
def Memory.wf (m : Memory) : Bool := Memory.wfFrom 0 m

/-- Every listed cell is an address of a memory of `limit` cells (R40). -/
def Memory.below (limit : Nat) (m : Memory) : Bool := m.all fun cell => decide (cell.1 < limit)

/-- `STATUS.state` (R26). -/
inductive Status where
  /-- 0: resumable by ADVANCE. -/
  | ready
  /-- 1: terminal, a halt instruction executed. -/
  | halted
  /-- 2: terminal, a fault was raised. -/
  | faulted
  /-- 3: inside an ADVANCE; the host never observes it. -/
  | running
  deriving DecidableEq, Repr

/-- `CONFIG.underflow_policy` (R28): what the input operation does with an empty queue. -/
inductive Policy where
  /-- 0: raise `InputUnderflow`. -/
  | fatal
  /-- 1: take the value 0. -/
  | defaultZero
  /-- 2: suspend with `NeedInput`. -/
  | block
  deriving DecidableEq, Repr

/-- `FAULT.code` (R150). -/
inductive FaultCode where
  /-- 0: no fault. -/
  | none
  /-- 1 (R151). -/
  | illegalOpcode
  /-- 2 (R152). -/
  | illegalAddressingMode
  /-- 3 (R153). -/
  | inputUnderflow
  /-- 4 (R154). -/
  | addressOutOfRange
  /-- 5 (R155). -/
  | arithmeticOverflow
  deriving DecidableEq, Repr

/-- The FAULT record (R27). -/
structure FaultRecord where
  code : FaultCode
  /-- `pc` of the instruction whose step raised the fault. -/
  pc : Nat
  /-- The instruction word fetched, or 0 when the fetch itself faulted. -/
  word : Word
  /-- The parameter index 1..3 the fault concerns, or 0. -/
  param : Fin 4
  /-- The offending value, an exact integer that may lie outside the word range. -/
  value : Int
  deriving DecidableEq, Repr

/-- The FAULT record when no fault has been raised (R27): every field 0. -/
def FaultRecord.clear : FaultRecord := { code := .none, pc := 0, word := 0, param := 0, value := 0 }

/-- What PEEK can select (R95). -/
inductive Selector where
  /-- `M[a]`; the host may name any integer. -/
  | memory (a : Int)
  | pc
  | rb
  /-- `len(Q)`. -/
  | queueLength
  /-- The entries of `Q`, front first. -/
  | queueEntries
  | status
  | fault
  | policy
  /-- Any selector that R95 does not list. -/
  | unlisted (selector : Nat)
  deriving DecidableEq, Repr

/-- The value PEEK returns. -/
inductive PeekValue where
  | word (v : Word)
  /-- `pc` or `len(Q)`. -/
  | number (n : Nat)
  | words (vs : List Word)
  | status (v : Status)
  | fault (v : FaultRecord)
  | policy (v : Policy)
  deriving DecidableEq, Repr

/-- Why a host command is refused (R97, R169). -/
inductive RejectReason where
  | badProgram
  | queueFull
  | badAddress
  | badSelector
  deriving DecidableEq, Repr

/-- The host commands (R81). -/
inductive Command where
  /-- LOAD: a list of integers, which LOAD checks to be words, and the 2 bits of the policy (R180, R181). -/
  | load (program : List Int) (policy : BitVec 2)
  /-- PUSH_INPUT of a word (R93). -/
  | pushInput (v : Word)
  /-- PATCH of any integer address with a word (R94). -/
  | patch (a : Int) (v : Word)
  /-- ADVANCE (R83). -/
  | advance
  /-- PEEK (R95). -/
  | peek (selector : Selector)
  deriving DecidableEq, Repr

/-- What a host command is answered with (R81, R97). -/
inductive Response where
  /-- ADVANCE ended at an output. -/
  | output (v : Word)
  /-- ADVANCE ended at a halt, or was issued to a halted instance. -/
  | halted
  /-- ADVANCE ended at an input with an empty queue under `Block`. -/
  | needInput
  /-- ADVANCE ended with a fault, or was issued to a faulted instance. -/
  | fault (f : FaultRecord)
  /-- LOAD, PUSH_INPUT or PATCH was accepted. -/
  | ok
  /-- The command was refused; nothing else changed. -/
  | rejected (reason : RejectReason)
  /-- PEEK's answer. -/
  | peeked (v : PeekValue)
  deriving DecidableEq, Repr

/-- The state of one instance. `mem` to `policy` are the architectural state of R20; `params` are the machine's
parameters; `commands` and `responses` are the host's side of the interface (log entry 4). -/
structure State where
  /-- The machine's parameters (R7); constant. -/
  params : Config.Params
  /-- `M` (R25). -/
  mem : Memory
  /-- Program counter (R22), an integer in `0 .. MEM_LIMIT`. -/
  pc : Nat
  /-- Relative base (R23). -/
  rb : Word
  /-- `Q`, front first (R24). -/
  queue : List Word
  /-- `STATUS.state` (R26). -/
  status : Status
  /-- The FAULT record (R27). -/
  fault : FaultRecord
  /-- `CONFIG.underflow_policy` (R28). -/
  policy : Policy
  /-- The commands the host has still to issue, next first. The host issues one only when the previous one has
  responded (R82). -/
  commands : List Command
  /-- The responses given so far, oldest first. -/
  responses : List Response
  deriving DecidableEq, Repr

/-- Reasons for which the machine stops outside its own rules. There is none: every fault of the spec
(R150) is taken as R157 describes, into a next state that holds the FAULT record. -/
inductive Fault where
  deriving DecidableEq, Repr

/-- Reasons for which the model gives no meaning. -/
inductive Refusal where
  /-- Raised by an arm of `exec` whose instruction has no meaning yet: none has. Safe: the run stops. -/
  | notModelled (mnemonic : String)
  deriving DecidableEq, Repr

/-- The machine after LOAD of the empty program (R32, R180): every register as R32 says, memory with nothing
listed. R32 gives the policy as LOAD's argument; `fatal` stands for it here (log entry 5). The host has issued no
command and seen no response yet. -/
def State.reset : State where
  params := Config.defaultParams
  mem := []
  pc := 0
  rb := 0
  queue := []
  status := .ready
  fault := FaultRecord.clear
  policy := .fatal
  commands := []
  responses := []

end Sys2Proof.Machine
end

