-- ==== Sys2Proof/Machine/Codes.lean ====
section
/-! DEFINITION. The numbers the registers and responses carry on the host's interface (R11, R26 to R28, R97,
R150). No rule of the engine reads one. -/

namespace Sys2Proof.Machine

open Sys2Proof

/-- `STATUS.state` as its 2 bits (R26). -/
def Status.code : Status → BitVec 2
  | .ready => 0
  | .halted => 1
  | .faulted => 2
  | .running => 3

/-- `CONFIG.underflow_policy` as its 2 bits (R28). -/
def Policy.code : Policy → BitVec 2
  | .fatal => 0
  | .defaultZero => 1
  | .block => 2

/-- The policy a 2-bit value names; 3 is not a legal value (R28). -/
def Policy.ofCode (c : BitVec 2) : Option Policy :=
  if c = 0 then some .fatal else if c = 1 then some .defaultZero else if c = 2 then some .block else none

/-- `FAULT.code` as its 3 bits (R27, R150). -/
def FaultCode.code : FaultCode → BitVec 3
  | .none => 0
  | .illegalOpcode => 1
  | .illegalAddressingMode => 2
  | .inputUnderflow => 3
  | .addressOutOfRange => 4
  | .arithmeticOverflow => 5

/-- The FAULT record in the widths of R27: code 3, pc `PC_BITS`, word `WORD_BITS`, param 2, value `WORD_BITS + 1`. -/
structure FaultBits where
  code : BitVec 3
  pc : BitVec 64
  word : BitVec 64
  param : BitVec 2
  value : BitVec 65
  deriving DecidableEq, Repr

/-- The FAULT record on the interface. R27 gives the widths and not the encoding of the numbers: `value` in two's
complement, as R11 has it for words, and `pc` and `param` as unsigned numbers are a DESIGN CHOICE (log entry 15). -/
def FaultRecord.bits (f : FaultRecord) : FaultBits :=
  { code := f.code.code, pc := BitVec.ofNat 64 f.pc, word := f.word, param := BitVec.ofNat 2 f.param.val,
    value := BitVec.ofInt 65 f.value }

/-- The reason of a `Rejected` response (R97). -/
def RejectReason.code : RejectReason → Nat
  | .badProgram => 0
  | .queueFull => 1
  | .badAddress => 2
  | .badSelector => 3

/-- A response to ADVANCE as data (R97): the FAULT record accompanies a fault. -/
structure AdvanceData where
  kind : BitVec 2
  value : Word
  fault : Option FaultRecord
  deriving DecidableEq, Repr

/-- The response as R97 encodes it; `none` for a response of another command. -/
def Response.advanceData : Response → Option AdvanceData
  | .output v => some { kind := 0, value := v, fault := none }
  | .halted => some { kind := 1, value := 0, fault := none }
  | .needInput => some { kind := 2, value := 0, fault := none }
  | .fault f => some { kind := 3, value := 0, fault := some f }
  | .ok => none
  | .rejected _ => none
  | .peeked _ => none

end Sys2Proof.Machine
end

