-- ==== Sys2Proof/Machine/Ops.lean ====
section
/-! DEFINITION. The operations every instruction is written with: reads and writes of memory and registers, the
address check, taking a fault, and the end of a step. -/

namespace Sys2Proof.Machine

open Sys2Proof

/-! ## Words -/

/-- `fits(v)` (R8): `v` is a word. -/
def fits (v : Int) : Bool := decide (wMin ≤ v) && decide (v ≤ wMax)

/-- The word whose value is `v`, for a `v` that fits. -/
def toWord (v : Int) : Word := BitVec.ofInt 64 v

/-! ## Memory -/

/-- `MemRead(a, 1)` (R42). -/
def Memory.read : Memory → Nat → Word
  | [], _ => Memory.unlisted
  | (b, w) :: m, a => if a = b then w else Memory.read m a

/-- `MemWrite(a, 1, v)` (R43). Writing what an unlisted cell holds takes the cell off the list. -/
def Memory.write : Memory → Nat → Word → Memory
  | [], a, v => if v = Memory.unlisted then [] else [(a, v)]
  | (b, w) :: m, a, v =>
    if a < b then (if v = Memory.unlisted then (b, w) :: m else (a, v) :: (b, w) :: m)
    else if a = b then (if v = Memory.unlisted then m else (a, v) :: m)
    else (b, w) :: Memory.write m a v

/-- The memory image of a program placed from address `a` up (R41). -/
def Memory.imageFrom (a : Nat) : List Word → Memory
  | [] => []
  | v :: vs =>
    if v = Memory.unlisted then Memory.imageFrom (a + 1) vs else (a, v) :: Memory.imageFrom (a + 1) vs

/-- The memory after LOAD of program `p` (R41). -/
def Memory.image (p : List Word) : Memory := Memory.imageFrom 0 p

/-! ## Registers and cells of the state -/

/-- The word at address `a`. -/
def State.cell (s : State) (a : Nat) : Word := s.mem.read a

/-- `MemWrite(a, 1, v)`. -/
def State.setCell (s : State) (a : Nat) (v : Word) : State := { s with mem := s.mem.write a v }

/-- `pc <- v`. -/
def State.setPc (s : State) (v : Nat) : State := { s with pc := v }

/-- `rb <- v`. -/
def State.setRb (s : State) (v : Word) : State := { s with rb := v }

/-- The queue becomes `q`. -/
def State.setQueue (s : State) (q : List Word) : State := { s with queue := q }

/-- `STATUS.state <- v`. -/
def State.setStatus (s : State) (v : Status) : State := { s with status := v }

/-- The current command is answered with `r`. -/
def State.respond (s : State) (r : Response) : State := { s with responses := s.responses ++ [r] }

/-! ## Faults -/

/-- What `raise <Fault>(info)` names (R10): the fault, the parameter it concerns and the offending value. -/
structure FaultInfo where
  code : FaultCode
  param : Fin 4
  value : Int
  deriving DecidableEq, Repr

/-- `a` is an address (R8): `0 <= a < MEM_LIMIT`. -/
def State.isAddr (s : State) (a : Int) : Bool := decide (0 ≤ a) && decide (a < s.params.memLimit)

/-- `AddrCheck(a, p)` (R44): the address, or `AddressOutOfRange` with parameter `p` and value `a`. -/
def addrCheck (s : State) (a : Int) (p : Fin 4) : Except FaultInfo Nat :=
  if s.isAddr a then .ok a.toNat else .error { code := .addressOutOfRange, param := p, value := a }

/-- `FAULT.word` (R27): the instruction word at `pc`, 0 when `pc` is no address. -/
def State.fetchedWord (s : State) : Word := if s.isAddr s.pc then s.cell s.pc else 0

/-- The FAULT record of a fault raised by the instruction at `pc` (R27, R151 to R155). -/
def State.recordOf (s : State) (f : FaultInfo) : FaultRecord :=
  { code := f.code, pc := s.pc, word := s.fetchedWord, param := f.param, value := f.value }

/-- Taking a fault (R157, and the `Fault(f)` case of R83): the FAULT record is written, STATUS becomes Faulted and
ADVANCE responds with the record. Nothing else changes; `pc` stays at the faulting instruction. There is no
return from a fault (R159). -/
def State.raise (s : State) (f : FaultInfo) : State :=
  { s with fault := s.recordOf f, status := .faulted, responses := s.responses ++ [.fault (s.recordOf f)] }

/-! ## The end of a step -/

/-- How a step that raised no fault ends (R83, R91). -/
inductive StepEnd where
  /-- `Continue`: ADVANCE goes on with the next step. -/
  | proceed
  /-- `suspend Output(v)`. -/
  | output (v : Word)
  /-- `suspend NeedInput`. -/
  | needInput
  /-- `suspend Halted`. -/
  | halted
  deriving DecidableEq, Repr

/-- What ADVANCE does with the end of a step (R83): a suspension sets STATUS and responds. -/
def State.conclude (s : State) : StepEnd → State
  | .proceed => s
  | .output v => (s.setStatus .ready).respond (.output v)
  | .needInput => (s.setStatus .ready).respond .needInput
  | .halted => (s.setStatus .halted).respond .halted

/-- The step from `s` whose checks and writes gave `r`: a fault is taken in `s` itself, so no write of the step
remains (R91, R158). -/
def finish (s : State) (r : Except FaultInfo (State × StepEnd)) : Host.Outcome State Fault Refusal :=
  match r with
  | .error f => .next (s.raise f)
  | .ok (t, e) => .next (t.conclude e)

end Sys2Proof.Machine
end

