-- ==== Sys2Proof/Machine/Commands.lean ====
section
/-! DEFINITION. The host commands (R81): LOAD, PUSH_INPUT, PATCH, ADVANCE, PEEK. Each is one atomic step that ends
in a response (R82), but for an ADVANCE that starts the engine, which responds when it suspends. -/

namespace Sys2Proof.Machine

open Sys2Proof

/-- The command is refused: nothing changes but the response (R81, R169). -/
def State.reject (s : State) (reason : RejectReason) : State := s.respond (.rejected reason)

/-- LOAD's checks (R181): every element a word, no more elements than cells, a legal policy value. -/
def loadable (s : State) (program : List Int) (policy : BitVec 2) : Option Policy :=
  if program.all fits && decide (program.length ≤ s.params.memLimit) then Policy.ofCode policy else none

/-- LOAD (R32, R180, R181): every piece of the state afresh, or refused. The parameters and the host's own side of
the interface are no state of the instance. -/
def hostLoad (s : State) (program : List Int) (policy : BitVec 2) : State :=
  match loadable s program policy with
  | none => s.reject .badProgram
  | some p =>
    State.respond
      { params := s.params, mem := Memory.image (program.map toWord), pc := 0, rb := 0, queue := [],
        status := .ready, fault := FaultRecord.clear, policy := p, commands := s.commands,
        responses := s.responses } .ok

/-- There is room in the input queue (R93). -/
def State.queueHasRoom (s : State) : Bool :=
  match s.params.queueCapacity with
  | none => true
  | some c => decide (s.queue.length < c)

/-- PUSH_INPUT (R93), accepted in every STATUS. -/
def hostPushInput (s : State) (v : Word) : State :=
  if s.queueHasRoom then (s.setQueue (s.queue ++ [v])).respond .ok else s.reject .queueFull

/-- PATCH (R94), accepted in every STATUS. -/
def hostPatch (s : State) (a : Int) (v : Word) : State :=
  if s.isAddr a then (s.setCell a.toNat v).respond .ok else s.reject .badAddress

/-- ADVANCE as it is issued (R83 to R85): a Ready instance begins to run; a Halted or Faulted one answers at once
and changes nothing. A running instance is issued no command (R82). -/
def hostAdvance (s : State) : State :=
  match s.status with
  | .ready => s.setStatus .running
  | .halted => s.respond .halted
  | .faulted => s.respond (.fault s.fault)
  | .running => s

/-- What PEEK at a non-address is refused with (R95, R97, log entry 6). -/
def peekNonAddressReason : RejectReason :=
  if Config.peekNonAddressIsBadSelector then .badSelector else .badAddress

/-- PEEK's answer (R95): the selected value, or the reason the selector is refused. -/
def peekAnswer (s : State) : Selector → Response
  | .memory a => if s.isAddr a then .peeked (.word (s.cell a.toNat)) else .rejected peekNonAddressReason
  | .pc => .peeked (.number s.pc)
  | .rb => .peeked (.word s.rb)
  | .queueLength => .peeked (.number s.queue.length)
  | .queueEntries => .peeked (.words s.queue)
  | .status => .peeked (.status s.status)
  | .fault => .peeked (.fault s.fault)
  | .policy => .peeked (.policy s.policy)
  | .unlisted _ => .rejected .badSelector

/-- PEEK (R95): changes nothing. -/
def hostPeek (s : State) (selector : Selector) : State := s.respond (peekAnswer s selector)

/-- One host command (R81). -/
def hostCommand (c : Command) (s : State) : State :=
  match c with
  | .load program policy => hostLoad s program policy
  | .pushInput v => hostPushInput s v
  | .patch a v => hostPatch s a v
  | .advance => hostAdvance s
  | .peek selector => hostPeek s selector

/-- What happens while no ADVANCE is in progress (R80, R82): the host issues its next command; with none left to
issue, the machine holds its state. -/
def idleStep (s : State) : State :=
  match s.commands with
  | [] => s
  | c :: rest => hostCommand c { s with commands := rest }

end Sys2Proof.Machine
end

