-- ==== Sys2Proof/Machine/Flags.lean ====
section
/-! DEFINITION. The integer ALU (R92). The machine has no status flags (R29): a comparison gives the word 1 or 0, a
jump tests its operand, and the one condition a result can raise is that it is not a word. -/

namespace Sys2Proof.Machine

open Sys2Proof

/-- The result as a word, or `ArithmeticOverflow` with parameter `p` (R92, R155). -/
def narrow (v : Int) (p : Fin 4) : Except FaultInfo Word :=
  if fits v then .ok (toWord v) else .error { code := .arithmeticOverflow, param := p, value := 0 }

/-- `a + b`, exact (R92, R100). -/
def aluAdd (a b : Word) : Except FaultInfo Word := narrow (a.toInt + b.toInt) 0

/-- `a * b`, exact (R92, R101). -/
def aluMul (a b : Word) : Except FaultInfo Word := narrow (a.toInt * b.toInt) 0

/-- `1 if a < b else 0`, signed (R92, R130). -/
def aluLess (a b : Word) : Word := if a.toInt < b.toInt then 1 else 0

/-- `1 if a = b else 0` (R92, R131). -/
def aluEqual (a b : Word) : Word := if a = b then 1 else 0

/-- The condition of jump-if-true: `a ≠ 0` (R92, R120). -/
def aluTrue (a : Word) : Bool := decide (a ≠ 0)

/-- The condition of jump-if-false: `a = 0` (R92, R121). -/
def aluFalse (a : Word) : Bool := decide (a = 0)

/-- `rb + a`, exact (R92, R140). -/
def aluAdjust (rb a : Word) : Except FaultInfo Word := narrow (rb.toInt + a.toInt) 1

end Sys2Proof.Machine
end

