-- ==== Sys2Proof/Machine/Operands.lean ====
section
/-! DEFINITION. The address decoder (R68, R69): the value of a read parameter and the target address of a write
parameter, in every mode. -/

namespace Sys2Proof.Machine

open Sys2Proof

/-- The address of parameter `k`'s cell (R60). -/
def State.paramAddr (s : State) (k : Fin 4) : Nat := s.pc + k.val

/-- Parameter word `k` (R60, R68). -/
def State.paramWord (s : State) (k : Fin 4) : Word := s.cell (s.paramAddr k)

/-- The effective address of parameter `k` (R68, R69, R70), an exact integer: the parameter word in position mode,
`rb` plus the parameter word in relative mode. In immediate mode the operand is the parameter cell itself. -/
def State.effectiveAddr (s : State) (k : Fin 4) : Mode → Int
  | .position => (s.paramWord k).toInt
  | .immediate => s.paramAddr k
  | .relative => s.rb.toInt + (s.paramWord k).toInt

/-- `ResolveRead(k)` (R68). -/
def resolveRead (s : State) (k : Fin 4) (m : Mode) : Except FaultInfo Word := do
  let _ ← addrCheck s (s.paramAddr k) k
  match m with
  | .immediate => .ok (s.paramWord k)
  | .position => do
    let a ← addrCheck s (s.effectiveAddr k .position) k
    .ok (s.cell a)
  | .relative => do
    let a ← addrCheck s (s.effectiveAddr k .relative) k
    .ok (s.cell a)

/-- `ResolveWrite(k)` (R69): the target address; the target cell is not read. -/
def resolveWrite (s : State) (k : Fin 4) (m : Mode) : Except FaultInfo Nat := do
  let _ ← addrCheck s (s.paramAddr k) k
  addrCheck s (s.effectiveAddr k m) k

/-- The mode check of a write parameter (R67, R89), for an instruction that comes from elsewhere than the decoder,
which never gives a write parameter immediate mode. -/
def checkWriteMode (k : Fin 4) (m : Mode) : Except FaultInfo Unit :=
  if m.writable then .ok () else .error { code := .illegalAddressingMode, param := k, value := m.toDigit }

end Sys2Proof.Machine
end

