-- ==== Sys2Proof/Machine/Arith.lean ====
section
/-! DEFINITION. `add` and `mul` (41_arith.md), and the shape they share with the comparisons. -/

namespace Sys2Proof.Machine

open Sys2Proof

/-- An instruction `op a, b, dst`: mode check, the two operands and the target resolved in order, the result
computed, then the one write and the advance by 4 (R51, R89, R90, R91). -/
def threeOperand (s : State) (a b dst : Mode) (alu : Word → Word → Except FaultInfo Word) :
    Host.Outcome State Fault Refusal :=
  finish s do
    checkWriteMode 3 dst
    let x ← resolveRead s 1 a
    let y ← resolveRead s 2 b
    let target ← resolveWrite s 3 dst
    let r ← alu x y
    .ok ((s.setCell target r).setPc (s.pc + 4), .proceed)

/-- `add` (R100). -/
def execAdd (a b dst : Mode) (s : State) : Host.Outcome State Fault Refusal :=
  threeOperand s a b dst aluAdd

/-- `mul` (R101). -/
def execMul (a b dst : Mode) (s : State) : Host.Outcome State Fault Refusal :=
  threeOperand s a b dst aluMul

end Sys2Proof.Machine
end

