-- ==== Sys2Proof/Machine/BaseHalt.lean ====
section
/-! DEFINITION. `arb` and `hlt` (45_base_halt.md). -/

namespace Sys2Proof.Machine

open Sys2Proof

/-- `arb` (R140): the operand is resolved with the old `rb`. -/
def execArb (a : Mode) (s : State) : Host.Outcome State Fault Refusal :=
  finish s do
    let x ← resolveRead s 1 a
    let r ← aluAdjust s.rb x
    .ok ((s.setRb r).setPc (s.pc + 2), .proceed)

/-- `hlt` (R141): `pc` keeps the address of the halt word. -/
def execHlt (s : State) : Host.Outcome State Fault Refusal := finish s (.ok (s, .halted))

end Sys2Proof.Machine
end

