-- ==== Sys2Proof/Machine/Branch.lean ====
section
/-! DEFINITION. `jt` and `jf` (43_branch.md). -/

namespace Sys2Proof.Machine

open Sys2Proof

/-- A conditional jump: both operands are resolved, taken or not (R90); the target is checked only when the jump is
taken, and is the absolute address `b` (R120, R121). -/
def jumpWhen (s : State) (a b : Mode) (condition : Word → Bool) : Host.Outcome State Fault Refusal :=
  finish s do
    let x ← resolveRead s 1 a
    let y ← resolveRead s 2 b
    if condition x then do
      let target ← addrCheck s y.toInt 2
      .ok (s.setPc target, .proceed)
    else .ok (s.setPc (s.pc + 3), .proceed)

/-- `jt` (R120). -/
def execJt (a b : Mode) (s : State) : Host.Outcome State Fault Refusal := jumpWhen s a b aluTrue

/-- `jf` (R121). -/
def execJf (a b : Mode) (s : State) : Host.Outcome State Fault Refusal := jumpWhen s a b aluFalse

end Sys2Proof.Machine
end

