-- ==== Sys2Proof/Machine/Compare.lean ====
section
/-! DEFINITION. `lt` and `eq` (44_compare.md). -/

namespace Sys2Proof.Machine

open Sys2Proof

/-- `lt` (R130). -/
def execLt (a b dst : Mode) (s : State) : Host.Outcome State Fault Refusal :=
  threeOperand s a b dst fun x y => .ok (aluLess x y)

/-- `eq` (R131). -/
def execEq (a b dst : Mode) (s : State) : Host.Outcome State Fault Refusal :=
  threeOperand s a b dst fun x y => .ok (aluEqual x y)

end Sys2Proof.Machine
end

