-- ==== Sys2Proof/Machine/InOut.lean ====
section
/-! DEFINITION. `in` and `out` (42_io.md). -/

namespace Sys2Proof.Machine

open Sys2Proof

/-- Where the input operation's value comes from (R110): the queue's front, or what the policy says of an empty
queue. `some (v, q)` is the value and the queue left; `none` is a `NeedInput` suspension. -/
def takeInput (s : State) : Except FaultInfo (Option (Word × List Word)) :=
  match s.queue, s.policy with
  | v :: rest, _ => .ok (some (v, rest))
  | [], .fatal => .error { code := .inputUnderflow, param := 1, value := 0 }
  | [], .defaultZero => .ok (some (0, []))
  | [], .block => .ok none

/-- `in` (R110): the target is checked and resolved before the queue is looked at. -/
def execIn (dst : Mode) (s : State) : Host.Outcome State Fault Refusal :=
  finish s do
    checkWriteMode 1 dst
    let target ← resolveWrite s 1 dst
    match ← takeInput s with
    | some (v, rest) => .ok (((s.setQueue rest).setCell target v).setPc (s.pc + 2), .proceed)
    | none => .ok (s, .needInput)

/-- `out` (R111): `pc` moves on before the suspension. -/
def execOut (a : Mode) (s : State) : Host.Outcome State Fault Refusal :=
  finish s do
    let v ← resolveRead s 1 a
    .ok (s.setPc (s.pc + 2), .output v)

end Sys2Proof.Machine
end

