-- ==== Sys2Proof/Machine/Fetch.lean ====
section
/-! DEFINITION. Phases 1 to 3 of a step (R87 to R89): the instruction word is read at `pc` and decoded. -/

namespace Sys2Proof.Machine

open Sys2Proof

/-- The fault a rejected word raises (R151, R152). -/
def faultOfDecode : DecodeError → FaultInfo
  | .illegalOpcode v => { code := .illegalOpcode, param := 0, value := v }
  | .illegalMode k v => { code := .illegalAddressingMode, param := k, value := v }

/-- The instruction at `pc`, or the fault of the fetch (R87), the opcode (R88) or the mode digits (R89). -/
def fetch (s : State) : Except FaultInfo Instr := do
  let a ← addrCheck s s.pc 0
  match decode (s.cell a) with
  | .ok i => .ok i
  | .error e => .error (faultOfDecode e)

/-- Storing the cells of an instruction from address `a` up: cell `k` is bits `64 k + 63 .. 64 k` of `bits`. A cell
that is no address is left out. -/
def State.placeCells (s : State) (a bits : Nat) : Nat → State
  | 0 => s
  | count + 1 =>
    let t := if s.isAddr a then s.setCell a (BitVec.ofNat 64 bits) else s
    State.placeCells t (a + 1) (bits / 2 ^ 64) count

end Sys2Proof.Machine
end

