-- ==== Sys2Proof/Machine/Step.lean ====
section
/-! DEFINITION. One step of the machine: inside an ADVANCE, one instruction (R192); outside, the host's next command
(R80 to R82). -/

namespace Sys2Proof.Machine

open Sys2Proof

/-- One Step of the engine (R87 to R91) with what ADVANCE does with its end (R83). -/
def engineStep (s : State) : Host.Outcome State Fault Refusal :=
  match fetch s with
  | .error f => .next (s.raise f)
  | .ok i => exec i s

/-- One step. -/
def step (s : State) : Host.Outcome State Fault Refusal :=
  match s.status with
  | .running => engineStep s
  | .ready => .next (idleStep s)
  | .halted => .next (idleStep s)
  | .faulted => .next (idleStep s)

/-- `s` with an instruction's bits stored from `pc` up, four cells, and an ADVANCE in progress, so that the next step
runs that instruction (log entry 7). -/
def State.withFetchWord (s : State) (nbits w : Nat) : State :=
  (s.placeCells s.pc (w % 2 ^ nbits) 4).setStatus .running

end Sys2Proof.Machine
end

