-- ==== Sys2Proof/Machine/Assembler.lean ====
section
/-! DEFINITION. The assembly notation of R75 to R77 as data: lines with labels, operands and pseudo-instructions, and
the cells they stand for. The notation is the spec's own (D17) and no part of the engine; characters, spacing and
comments are left out (log entry 8). -/

namespace Sys2Proof.Machine

open Sys2Proof

/-- A number or a label in an operand or a data directive (R75, R77). -/
inductive AsmValue where
  | number (v : Word)
  | label (name : String)
  deriving DecidableEq, Repr

/-- An operand (R75): `N`, `#N`, and `rb+N` (`rb-N` and `rb` are `rb` plus `-N` and 0). -/
inductive AsmOperand where
  | position (v : AsmValue)
  | immediate (v : AsmValue)
  | relative (v : AsmValue)
  deriving DecidableEq, Repr

/-- The mnemonics of R65 and the pseudo-instructions of R76. -/
inductive Mnemonic where
  | add | mul | inp | out | jt | jf | lt | eq | arb | hlt
  | mov | clr | jmp | not | nop
  deriving DecidableEq, Repr

/-- What stands on a line (R75, R77). -/
inductive AsmLine where
  /-- `name:`, the address of the next cell. -/
  | label (name : String)
  /-- `mnemonic op1, op2, op3`. -/
  | code (m : Mnemonic) (operands : List AsmOperand)
  /-- `.word v1, v2, …`. -/
  | data (values : List AsmValue)
  deriving DecidableEq, Repr

/-- The mode an operand is written in (R75). -/
def AsmOperand.mode : AsmOperand → Mode
  | .position _ => .position
  | .immediate _ => .immediate
  | .relative _ => .relative

/-- The parameter word an operand is written with (R75). -/
def AsmOperand.value : AsmOperand → AsmValue
  | .position v => v
  | .immediate v => v
  | .relative v => v

/-- `#n`. -/
def literal (n : Word) : AsmOperand := .immediate (.number n)

/-- The expansion of a pseudo-instruction (R76); a core instruction stands for itself. -/
def expand : Mnemonic → List AsmOperand → Mnemonic × List AsmOperand
  | .mov, [s, d] => (.add, [s, literal 0, d])
  | .clr, [d] => (.add, [literal 0, literal 0, d])
  | .jmp, [t] => (.jt, [literal 1, t])
  | .not, [s, d] => (.eq, [s, literal 0, d])
  | .nop, [] => (.jt, [literal 0, literal 0])
  | m, operands => (m, operands)

/-- The instruction a core mnemonic and its operands' modes make; `none` for a wrong number of operands, or an
immediate write operand (R75). -/
def instrOf (m : Mnemonic) (modes : List Mode) : Option Instr :=
  let made : Option Instr :=
    match m, modes with
    | .add, [a, b, d] => some (.add a b d)
    | .mul, [a, b, d] => some (.mul a b d)
    | .inp, [d] => some (.inp d)
    | .out, [a] => some (.out a)
    | .jt, [a, b] => some (.jt a b)
    | .jf, [a, b] => some (.jf a b)
    | .lt, [a, b, d] => some (.lt a b d)
    | .eq, [a, b, d] => some (.eq a b d)
    | .arb, [a] => some (.arb a)
    | .hlt, [] => some .hlt
    | _, _ => none
  made.filter Instr.wellFormed

/-- How many cells a line fills. -/
def AsmLine.size : AsmLine → Nat
  | .label _ => 0
  | .code m operands => (expand m operands).2.length + 1
  | .data values => values.length

/-- The address each label names, when the first line stands at `a`. -/
def labelsFrom (a : Nat) : List AsmLine → List (String × Nat)
  | [] => []
  | .label name :: rest => (name, a) :: labelsFrom a rest
  | .code m operands :: rest => labelsFrom (a + (AsmLine.code m operands).size) rest
  | .data values :: rest => labelsFrom (a + values.length) rest

/-- The word a number or label stands for; `none` for a label no line carries. -/
def AsmValue.word (labels : List (String × Nat)) : AsmValue → Option Word
  | .number v => some v
  | .label name => (labels.find? fun l => decide (l.1 = name)).map fun l => BitVec.ofNat 64 l.2

/-- The cells of one line; `none` where the line is not legal. -/
def AsmLine.cells (labels : List (String × Nat)) : AsmLine → Option (List Word)
  | .label _ => some []
  | .data values => values.mapM (AsmValue.word labels)
  | .code m operands => do
    let (core, ops) := expand m operands
    let i ← instrOf core (ops.map AsmOperand.mode)
    let parameters ← ops.mapM fun o => o.value.word labels
    some (encodeCells i parameters)

/-- The cells of a listing from address 0 (R77). -/
def assemble (lines : List AsmLine) : Option (List Word) :=
  (lines.mapM (AsmLine.cells (labelsFrom 0 lines))).map List.flatten

end Sys2Proof.Machine
end

