-- ==== Sys2Proof/Machine/Instances.lean ====
section
/-! DEFINITION. Several instances (R12, R31, R166): a list of independent states. The host is one agent, which waits for
the response of an ADVANCE, so that while one instance runs no other takes a step. -/

namespace Sys2Proof.Machine

open Sys2Proof

/-- No instance but `k` is inside an ADVANCE (R12, R80). -/
def othersIdle (xs : List State) (k : Nat) : Bool := (xs.eraseIdx k).all fun s => decide (s.status ≠ .running)

/-- Instance `k` of `xs` takes a step, if no other instance is inside an ADVANCE (R12: "Instances never run
concurrently"); the others hold their states. While another instance runs, and with no instance `k`, nothing happens
(log entry 14). -/
def stepInstance (xs : List State) (k : Nat) : Host.Outcome (List State) Fault Refusal :=
  match xs[k]? with
  | none => .next xs
  | some s =>
    if othersIdle xs k then
      match step s with
      | .next t => .next (xs.set k t)
      | .fault r => .fault r
      | .refused r => .refused r
    else .next xs

end Sys2Proof.Machine
end

