-- ==== Sys2Proof/Safety.lean ====
section
/-! DEFINITION. The terms claims use: operands that can be resolved, the values they have, safe states, and the
invariant every step keeps. -/

namespace Sys2Proof.Machine

open Sys2Proof

/-- Parameter `k`'s cell exists. -/
abbrev State.hasParam (s : State) (k : Fin 4) : Prop := s.paramAddr k < s.params.memLimit

/-- Read parameter `k` resolves (R68): its cell exists and, in position and relative mode, its effective address is
an address. -/
abbrev State.readable (s : State) (k : Fin 4) (m : Mode) : Prop :=
  s.hasParam k ∧ (m ≠ .immediate → 0 ≤ s.effectiveAddr k m ∧ s.effectiveAddr k m < s.params.memLimit)

/-- The value of a readable parameter (R68). -/
def State.operand (s : State) (k : Fin 4) : Mode → Word
  | .position => s.cell (s.paramWord k).toInt.toNat
  | .immediate => s.paramWord k
  | .relative => s.cell (s.rb.toInt + (s.paramWord k).toInt).toNat

/-- Write parameter `k` resolves (R69): its mode is 0 or 2, its cell exists and its effective address is an
address. -/
abbrev State.targetable (s : State) (k : Fin 4) (m : Mode) : Prop :=
  m ≠ .immediate ∧ s.hasParam k ∧ 0 ≤ s.effectiveAddr k m ∧ s.effectiveAddr k m < s.params.memLimit

/-- The target address of a targetable parameter (R69). -/
def State.target (s : State) (k : Fin 4) (m : Mode) : Nat := (s.effectiveAddr k m).toNat

/-- The fault of resolving parameter `k` in mode `m`, if there is one (R68, R69, R154): the parameter cell is checked
first, then, but for immediate mode, the effective address. -/
def State.paramFault (s : State) (k : Fin 4) (m : Mode) : Option FaultInfo :=
  if s.paramAddr k < s.params.memLimit then
    if m = .immediate ∨ (0 ≤ s.effectiveAddr k m ∧ s.effectiveAddr k m < s.params.memLimit) then none
    else some { code := .addressOutOfRange, param := k, value := s.effectiveAddr k m }
  else some { code := .addressOutOfRange, param := k, value := s.paramAddr k }

/-- The first fault of resolving an instruction's parameters, in increasing order (R90). -/
def State.firstParamFault (s : State) (i : Instr) : Option FaultInfo :=
  (([1, 2, 3] : List (Fin 4)).zip i.modes).findSome? fun p => s.paramFault p.1 p.2

/-- The address an instruction stores to, if it stores (R33): the target of its write parameter. -/
def State.storeTarget (s : State) : Instr → Option Nat
  | .add _ _ dst => some (s.target 3 dst)
  | .mul _ _ dst => some (s.target 3 dst)
  | .inp dst => some (s.target 1 dst)
  | .out _ => none
  | .jt _ _ => none
  | .jf _ _ => none
  | .lt _ _ dst => some (s.target 3 dst)
  | .eq _ _ dst => some (s.target 3 dst)
  | .arb _ => none
  | .hlt => none

/-- The parameters of an operation (R65), `true` for a write parameter; `none` where the opcode selects none. -/
def paramKinds : Nat → Option (List Bool)
  | 1 => some [false, false, true]
  | 2 => some [false, false, true]
  | 3 => some [true]
  | 4 => some [false]
  | 5 => some [false, false]
  | 6 => some [false, false]
  | 7 => some [false, false, true]
  | 8 => some [false, false, true]
  | 9 => some [false]
  | 99 => some []
  | _ => none

/-- A mode digit legal for a parameter of that kind (R67). -/
abbrev legalModeDigit (write : Bool) (d : Nat) : Prop := d = 0 ∨ d = 2 ∨ (d = 1 ∧ write = false)

/-- A run is safe while no fault has been taken (R157). -/
abbrev State.safe (s : State) : Prop := s.status ≠ .faulted

/-- At most one of several instances is inside an ADVANCE (R12). -/
def oneRunsAtMost (xs : List State) : Prop :=
  ∀ (i j : Nat) (s t : State), xs[i]? = some s → xs[j]? = some t →
    s.status = .running → t.status = .running → i = j

/-- What holds of every state a run reaches from reset under any host commands. -/
structure State.Inv (s : State) : Prop where
  /-- At least one cell; and `pc` fits `PC_BITS`, a fault's value `WORD_BITS + 1` (R7, R27, log entry 1). -/
  limit : 1 ≤ s.params.memLimit ∧ s.params.memLimit + 3 < 2 ^ 64
  /-- Memory is in canonical form. -/
  memory : s.mem.wf = true
  /-- Every listed cell is an address (R40). -/
  below : s.mem.below s.params.memLimit = true
  /-- `pc` lies in `0 .. MEM_LIMIT` (R22). -/
  pc : s.pc ≤ s.params.memLimit
  /-- The queue is no longer than its capacity (R24). -/
  queue : ∀ c, s.params.queueCapacity = some c → s.queue.length ≤ c
  /-- STATUS is Faulted exactly when a fault is recorded (R26, R27). -/
  faulted : s.status = .faulted ↔ s.fault.code ≠ .none
  /-- With no fault recorded every field of FAULT is 0 (R27). -/
  clear : s.fault.code = .none → s.fault = FaultRecord.clear
  /-- A faulted instance's `pc` is the faulting instruction's (R157). -/
  faultPc : s.status = .faulted → s.fault.pc = s.pc
  /-- FAULT.value fits `WORD_BITS + 1` bits (R27). -/
  faultValue : -18446744073709551616 ≤ s.fault.value ∧ s.fault.value < 18446744073709551616

end Sys2Proof.Machine
end

