-- ==== Sys2Proof/Certificates/Slice0/Obligations.lean ====
section
/-! DEFINITION. The statements about the model, for the provers. A frame is written by putting a field back:
`{ t with pc := s.pc } = s` says that `t` differs from `s` in `pc` alone. -/

open Sys2Proof Sys2Proof.Machine

/-! ## Encoding -/

/-- Words written out digit by digit from R61, R62 and R65 decode to the instructions they stand for; `10099` and
`100001` have digits R64 ignores. -/
def Obligations.SpecWordsDecode : Prop :=
  decode 22201 = .ok (.add .relative .relative .relative) ∧
  decode 100001 = .ok (.add .position .position .position) ∧
  decode 1002 = .ok (.mul .position .immediate .position) ∧
  decode 203 = .ok (.inp .relative) ∧
  decode 104 = .ok (.out .immediate) ∧
  decode 1205 = .ok (.jt .relative .immediate) ∧
  decode 2006 = .ok (.jf .position .relative) ∧
  decode 20107 = .ok (.lt .immediate .position .relative) ∧
  decode 1108 = .ok (.eq .immediate .immediate .position) ∧
  decode 209 = .ok (.arb .relative) ∧
  decode 10099 = .ok .hlt

/-- Decode and encode agree (R74): the canonical word of every well-formed instruction decodes to it. -/
def Obligations.DecodeOfEncode : Prop :=
  ∀ i : Instr, i.wellFormed = true → decode (encode i) = .ok i

/-- The decoder accepts exactly the legal words (R61, R62, R64, R67): the two low digits are the opcode, digit `k + 1`
is the mode of parameter `k`, no other digit matters, and a write parameter is not immediate. -/
def Obligations.DecodeAcceptsExactlyLegalWords : Prop :=
  ∀ (w : Word) (i : Instr), decode w = .ok i ↔
    0 ≤ w.toInt ∧ w.toInt.toNat % 100 = i.opcode ∧ i.wellFormed = true ∧
      ∀ (j : Nat) (m : Mode), i.modes[j]? = some m → w.toInt.toNat / 10 ^ (j + 2) % 10 = m.toDigit

/-- `IllegalOpcode` (R63, R88) is answered for exactly the negative words, with the word as value, and the words whose
two low digits are none of the ten opcodes, with those digits as value. -/
def Obligations.IllegalOpcodeExactly : Prop :=
  ∀ (w : Word) (v : Int), decode w = .error (.illegalOpcode v) ↔
    (w.toInt < 0 ∧ v = w.toInt) ∨
    (0 ≤ w.toInt ∧ v = w.toInt % 100 ∧ w.toInt % 100 ∉ ([1, 2, 3, 4, 5, 6, 7, 8, 9, 99] : List Int))

/-- `IllegalAddressingMode` (R89) is answered for exactly the words with a legal opcode and an illegal mode digit, with
the lowest-numbered parameter that has one and its digit. -/
def Obligations.LowestIllegalModeReported : Prop :=
  ∀ (w : Word) (k : Fin 4) (v : Int), decode w = .error (.illegalMode k v) ↔
    0 ≤ w.toInt ∧ ∃ kinds, paramKinds (w.toInt.toNat % 100) = some kinds ∧
      ∃ (j : Nat) (write : Bool), kinds[j]? = some write ∧ k.val = j + 1 ∧
        v = (digit w.toInt.toNat (j + 2) : Nat) ∧ ¬ legalModeDigit write (digit w.toInt.toNat (j + 2)) ∧
        ∀ (j' : Nat) (write' : Bool), j' < j → kinds[j']? = some write' →
          legalModeDigit write' (digit w.toInt.toNat (j' + 2))

/-! ## Operands -/

/-- `ResolveRead(k)` (R68): the parameter cell is checked first; then position mode reads the cell the parameter word
names, immediate mode takes the parameter word, relative mode reads the cell at `rb` plus the parameter word, each
address checked. -/
def Obligations.ReadParameterResolution : Prop :=
  ∀ (s : State) (k : Fin 4),
    (¬ s.pc + k.val < s.params.memLimit → ∀ m, resolveRead s k m =
      .error { code := .addressOutOfRange, param := k, value := ((s.pc + k.val : Nat) : Int) }) ∧
    (s.pc + k.val < s.params.memLimit →
      resolveRead s k .immediate = .ok (s.cell (s.pc + k.val)) ∧
      (resolveRead s k .position =
        if 0 ≤ (s.cell (s.pc + k.val)).toInt ∧ (s.cell (s.pc + k.val)).toInt < s.params.memLimit
        then .ok (s.cell (s.cell (s.pc + k.val)).toInt.toNat)
        else .error { code := .addressOutOfRange, param := k, value := (s.cell (s.pc + k.val)).toInt }) ∧
      (resolveRead s k .relative =
        if 0 ≤ s.rb.toInt + (s.cell (s.pc + k.val)).toInt ∧
            s.rb.toInt + (s.cell (s.pc + k.val)).toInt < s.params.memLimit
        then .ok (s.cell (s.rb.toInt + (s.cell (s.pc + k.val)).toInt).toNat)
        else .error { code := .addressOutOfRange, param := k,
                      value := s.rb.toInt + (s.cell (s.pc + k.val)).toInt }))

/-- `ResolveWrite(k)` (R69): the parameter cell is checked first; the target is the parameter word in position mode and
`rb` plus the parameter word in relative mode, and must be an address. -/
def Obligations.WriteParameterResolution : Prop :=
  ∀ (s : State) (k : Fin 4),
    (¬ s.pc + k.val < s.params.memLimit → ∀ m, m ≠ .immediate → resolveWrite s k m =
      .error { code := .addressOutOfRange, param := k, value := ((s.pc + k.val : Nat) : Int) }) ∧
    (s.pc + k.val < s.params.memLimit →
      (resolveWrite s k .position =
        if 0 ≤ (s.cell (s.pc + k.val)).toInt ∧ (s.cell (s.pc + k.val)).toInt < s.params.memLimit
        then .ok (s.cell (s.pc + k.val)).toInt.toNat
        else .error { code := .addressOutOfRange, param := k, value := (s.cell (s.pc + k.val)).toInt }) ∧
      (resolveWrite s k .relative =
        if 0 ≤ s.rb.toInt + (s.cell (s.pc + k.val)).toInt ∧
            s.rb.toInt + (s.cell (s.pc + k.val)).toInt < s.params.memLimit
        then .ok (s.rb.toInt + (s.cell (s.pc + k.val)).toInt).toNat
        else .error { code := .addressOutOfRange, param := k,
                      value := s.rb.toInt + (s.cell (s.pc + k.val)).toInt }))

/-- Every parameter is resolved, in increasing order, whether or not its value is used (R90): an instruction whose
parameters do not all resolve takes the first one's address fault. -/
def Obligations.OperandFaultsInOrder : Prop :=
  ∀ (i : Instr) (s : State) (f : FaultInfo), i.wellFormed = true → s.firstParamFault i = some f →
    exec i s = .next (s.raise f)

/-- An instruction with an immediate write parameter, which no word decodes to, takes `IllegalAddressingMode` for that
parameter before any operand is resolved (R67). -/
def Obligations.ImmediateTargetFaults : Prop :=
  ∀ (s : State) (a b : Mode),
    let third : FaultInfo := { code := .illegalAddressingMode, param := 3, value := 1 }
    exec (.add a b .immediate) s = .next (s.raise third) ∧
    exec (.mul a b .immediate) s = .next (s.raise third) ∧
    exec (.lt a b .immediate) s = .next (s.raise third) ∧
    exec (.eq a b .immediate) s = .next (s.raise third) ∧
    exec (.inp .immediate) s = .next (s.raise { code := .illegalAddressingMode, param := 1, value := 1 })

/-! ## The instructions -/

/-- `add` (R100): the exact sum is written to the target and `pc` moves on by 4; every other cell and register keeps its
value. A sum that is no word takes `ArithmeticOverflow` (parameter 0, value 0) in the unchanged state. -/
def Obligations.AddWritesExactSum : Prop :=
  ∀ (s : State) (a b dst : Mode), s.mem.wf = true →
    s.readable 1 a → s.readable 2 b → s.targetable 3 dst →
    (fits ((s.operand 1 a).toInt + (s.operand 2 b).toInt) = true →
      ∃ t, exec (.add a b dst) s = .next t ∧
        (t.cell (s.target 3 dst)).toInt = (s.operand 1 a).toInt + (s.operand 2 b).toInt ∧
        (∀ x, x ≠ s.target 3 dst → t.cell x = s.cell x) ∧
        t.pc = s.pc + 4 ∧ { t with mem := s.mem, pc := s.pc } = s) ∧
    (fits ((s.operand 1 a).toInt + (s.operand 2 b).toInt) = false →
      exec (.add a b dst) s = .next (s.raise { code := .arithmeticOverflow, param := 0, value := 0 }))

/-- `mul` (R101): as `add`, with the exact product. -/
def Obligations.MulWritesExactProduct : Prop :=
  ∀ (s : State) (a b dst : Mode), s.mem.wf = true →
    s.readable 1 a → s.readable 2 b → s.targetable 3 dst →
    (fits ((s.operand 1 a).toInt * (s.operand 2 b).toInt) = true →
      ∃ t, exec (.mul a b dst) s = .next t ∧
        (t.cell (s.target 3 dst)).toInt = (s.operand 1 a).toInt * (s.operand 2 b).toInt ∧
        (∀ x, x ≠ s.target 3 dst → t.cell x = s.cell x) ∧
        t.pc = s.pc + 4 ∧ { t with mem := s.mem, pc := s.pc } = s) ∧
    (fits ((s.operand 1 a).toInt * (s.operand 2 b).toInt) = false →
      exec (.mul a b dst) s = .next (s.raise { code := .arithmeticOverflow, param := 0, value := 0 }))

/-- `lt` (R130): 1 if the first operand is less than the second as signed words, else 0; `pc` moves on by 4; nothing else
changes. -/
def Obligations.LessThanWritesOneOrZero : Prop :=
  ∀ (s : State) (a b dst : Mode), s.mem.wf = true →
    s.readable 1 a → s.readable 2 b → s.targetable 3 dst →
    ∃ t, exec (.lt a b dst) s = .next t ∧
      (t.cell (s.target 3 dst)).toInt = (if (s.operand 1 a).toInt < (s.operand 2 b).toInt then 1 else 0) ∧
      (∀ x, x ≠ s.target 3 dst → t.cell x = s.cell x) ∧
      t.pc = s.pc + 4 ∧ { t with mem := s.mem, pc := s.pc } = s

/-- `eq` (R131): 1 if the operands are equal, else 0; `pc` moves on by 4; nothing else changes. -/
def Obligations.EqualsWritesOneOrZero : Prop :=
  ∀ (s : State) (a b dst : Mode), s.mem.wf = true →
    s.readable 1 a → s.readable 2 b → s.targetable 3 dst →
    ∃ t, exec (.eq a b dst) s = .next t ∧
      (t.cell (s.target 3 dst)).toInt = (if (s.operand 1 a).toInt = (s.operand 2 b).toInt then 1 else 0) ∧
      (∀ x, x ≠ s.target 3 dst → t.cell x = s.cell x) ∧
      t.pc = s.pc + 4 ∧ { t with mem := s.mem, pc := s.pc } = s

/-- `in` (R110). With a value waiting, the front of the queue moves to the target and `pc` moves on by 2. With none, the
policy decides: `Fatal` takes `InputUnderflow`; `DefaultZero` writes 0 and moves on; `Block` suspends with `NeedInput`
and leaves `pc` and memory as they are. -/
def Obligations.InputByQueueAndPolicy : Prop :=
  ∀ (s : State) (dst : Mode), s.mem.wf = true → s.targetable 1 dst →
    (∀ v rest, s.queue = v :: rest →
      ∃ t, exec (.inp dst) s = .next t ∧ t.queue = rest ∧ t.cell (s.target 1 dst) = v ∧
        (∀ x, x ≠ s.target 1 dst → t.cell x = s.cell x) ∧
        t.pc = s.pc + 2 ∧ { t with mem := s.mem, pc := s.pc, queue := s.queue } = s) ∧
    (s.queue = [] → s.policy = .fatal →
      exec (.inp dst) s = .next (s.raise { code := .inputUnderflow, param := 1, value := 0 })) ∧
    (s.queue = [] → s.policy = .defaultZero →
      ∃ t, exec (.inp dst) s = .next t ∧ t.cell (s.target 1 dst) = 0 ∧
        (∀ x, x ≠ s.target 1 dst → t.cell x = s.cell x) ∧
        t.pc = s.pc + 2 ∧ { t with mem := s.mem, pc := s.pc } = s) ∧
    (s.queue = [] → s.policy = .block →
      exec (.inp dst) s = .next { s with status := .ready, responses := s.responses ++ [.needInput] })

/-- `out` (R111): `pc` moves on by 2, ADVANCE ends with the operand as its response, STATUS is Ready; nothing else
changes. -/
def Obligations.OutputYieldsOperand : Prop :=
  ∀ (s : State) (a : Mode), s.readable 1 a →
    exec (.out a) s = .next { s with pc := s.pc + 2, status := .ready,
                                     responses := s.responses ++ [.output (s.operand 1 a)] }

/-- `jt` (R120): with a nonzero first operand `pc` becomes the second, if that is an address, and otherwise the jump
takes `AddressOutOfRange` (parameter 2); with a zero first operand `pc` moves on by 3. Nothing else changes. -/
def Obligations.JumpIfTrueByOperand : Prop :=
  ∀ (s : State) (a b : Mode), s.readable 1 a → s.readable 2 b →
    ((s.operand 1 a).toInt ≠ 0 → 0 ≤ (s.operand 2 b).toInt → (s.operand 2 b).toInt < s.params.memLimit →
      exec (.jt a b) s = .next { s with pc := (s.operand 2 b).toInt.toNat }) ∧
    ((s.operand 1 a).toInt ≠ 0 → ¬ (0 ≤ (s.operand 2 b).toInt ∧ (s.operand 2 b).toInt < s.params.memLimit) →
      exec (.jt a b) s =
        .next (s.raise { code := .addressOutOfRange, param := 2, value := (s.operand 2 b).toInt })) ∧
    ((s.operand 1 a).toInt = 0 → exec (.jt a b) s = .next { s with pc := s.pc + 3 })

/-- `jf` (R121): as `jt`, taken when the first operand is zero. -/
def Obligations.JumpIfFalseByOperand : Prop :=
  ∀ (s : State) (a b : Mode), s.readable 1 a → s.readable 2 b →
    ((s.operand 1 a).toInt = 0 → 0 ≤ (s.operand 2 b).toInt → (s.operand 2 b).toInt < s.params.memLimit →
      exec (.jf a b) s = .next { s with pc := (s.operand 2 b).toInt.toNat }) ∧
    ((s.operand 1 a).toInt = 0 → ¬ (0 ≤ (s.operand 2 b).toInt ∧ (s.operand 2 b).toInt < s.params.memLimit) →
      exec (.jf a b) s =
        .next (s.raise { code := .addressOutOfRange, param := 2, value := (s.operand 2 b).toInt })) ∧
    ((s.operand 1 a).toInt ≠ 0 → exec (.jf a b) s = .next { s with pc := s.pc + 3 })

/-- `arb` (R140): `rb` becomes the exact sum of itself and the operand, which was read with the old `rb`, and `pc` moves
on by 2; nothing else changes. A sum that is no word takes `ArithmeticOverflow` (parameter 1, value 0). -/
def Obligations.AdjustBaseAddsOperand : Prop :=
  ∀ (s : State) (a : Mode), s.readable 1 a →
    (fits (s.rb.toInt + (s.operand 1 a).toInt) = true →
      ∃ t, exec (.arb a) s = .next t ∧ t.rb.toInt = s.rb.toInt + (s.operand 1 a).toInt ∧
        t.pc = s.pc + 2 ∧ { t with rb := s.rb, pc := s.pc } = s) ∧
    (fits (s.rb.toInt + (s.operand 1 a).toInt) = false →
      exec (.arb a) s = .next (s.raise { code := .arithmeticOverflow, param := 1, value := 0 }))

/-- `hlt` (R141): ADVANCE ends with `Halted` and STATUS is Halted; `pc` stays at the halt word and nothing else
changes. -/
def Obligations.HaltEndsAdvance : Prop :=
  ∀ s : State, exec .hlt s = .next { s with status := .halted, responses := s.responses ++ [.halted] }

/-- The pseudo-instructions (R76): each expands to its one instruction, and a cell sequence with its parameter words has
the effect R76 gives it. -/
def Obligations.PseudoInstructionEffects : Prop :=
  (∀ x d t : AsmOperand,
    expand .mov [x, d] = (.add, [x, literal 0, d]) ∧ expand .clr [d] = (.add, [literal 0, literal 0, d]) ∧
    expand .jmp [t] = (.jt, [literal 1, t]) ∧ expand .not [x, d] = (.eq, [x, literal 0, d]) ∧
    expand .nop [] = (.jt, [literal 0, literal 0])) ∧
  (∀ (s : State) (x d : Mode), s.mem.wf = true → s.readable 1 x → s.targetable 3 d → s.paramWord 2 = 0 →
    (∃ t, exec (.add x .immediate d) s = .next t ∧ t.cell (s.target 3 d) = s.operand 1 x ∧ t.pc = s.pc + 4) ∧
    (∃ t, exec (.eq x .immediate d) s = .next t ∧
      t.cell (s.target 3 d) = (if s.operand 1 x = 0 then 1 else 0) ∧ t.pc = s.pc + 4) ∧
    (s.paramWord 1 = 0 → ∃ t, exec (.add .immediate .immediate d) s = .next t ∧ t.cell (s.target 3 d) = 0)) ∧
  (∀ (s : State) (t : Mode), s.hasParam 1 → s.readable 2 t →
    (s.paramWord 1 = 1 → 0 ≤ (s.operand 2 t).toInt → (s.operand 2 t).toInt < s.params.memLimit →
      exec (.jt .immediate t) s = .next { s with pc := (s.operand 2 t).toInt.toNat }) ∧
    (s.paramWord 1 = 0 → exec (.jt .immediate t) s = .next { s with pc := s.pc + 3 }))

/-! ## A step of the engine -/

/-- A step of a running instance whose word at `pc` decodes to an instruction is that instruction, executed in the same
state: nothing is added around it (R87 to R91). -/
def Obligations.StepRunsDecodedInstruction : Prop :=
  ∀ (s : State) (i : Instr), s.status = .running → s.pc < s.params.memLimit → decode (s.cell s.pc) = .ok i →
    step s = exec i s

/-- A fetch at an address that does not exist (R87) takes `AddressOutOfRange` with parameter 0, value `pc` and FAULT.word
0. -/
def Obligations.FetchOutsideMemoryFaults : Prop :=
  ∀ s : State, s.status = .running → ¬ s.pc < s.params.memLimit →
    ∃ t, step s = .next t ∧ t.status = .faulted ∧
      t.fault = { code := .addressOutOfRange, pc := s.pc, word := 0, param := 0, value := s.pc } ∧
      t.responses = s.responses ++ [.fault t.fault] ∧
      { t with status := s.status, fault := s.fault, responses := s.responses } = s

/-- A word the decoder rejects is a fault of the step that fetched it (R151, R152), with the word recorded. -/
def Obligations.RejectedWordFaults : Prop :=
  ∀ s : State, s.status = .running → s.pc < s.params.memLimit →
    (∀ v, decode (s.cell s.pc) = .error (.illegalOpcode v) →
      ∃ t, step s = .next t ∧ t.status = .faulted ∧
        t.fault = { code := .illegalOpcode, pc := s.pc, word := s.cell s.pc, param := 0, value := v } ∧
        t.responses = s.responses ++ [.fault t.fault] ∧
        { t with status := s.status, fault := s.fault, responses := s.responses } = s) ∧
    (∀ k v, decode (s.cell s.pc) = .error (.illegalMode k v) →
      ∃ t, step s = .next t ∧ t.status = .faulted ∧
        t.fault = { code := .illegalAddressingMode, pc := s.pc, word := s.cell s.pc, param := k, value := v } ∧
        t.responses = s.responses ++ [.fault t.fault] ∧
        { t with status := s.status, fault := s.fault, responses := s.responses } = s)

/-- The order of R156: the fetch address before the opcode and the mode digits, those (as the decoder reports them)
before any parameter, the parameters in order before the operation's own check, and one fault a step. -/
def Obligations.FaultPriority : Prop :=
  ∀ s : State, s.status = .running →
    (¬ s.pc < s.params.memLimit →
      step s = .next (s.raise { code := .addressOutOfRange, param := 0, value := s.pc })) ∧
    (s.pc < s.params.memLimit →
      (∀ v, decode (s.cell s.pc) = .error (.illegalOpcode v) →
        step s = .next (s.raise { code := .illegalOpcode, param := 0, value := v })) ∧
      (∀ k v, decode (s.cell s.pc) = .error (.illegalMode k v) →
        step s = .next (s.raise { code := .illegalAddressingMode, param := k, value := v })) ∧
      (∀ i f, decode (s.cell s.pc) = .ok i → s.firstParamFault i = some f → step s = .next (s.raise f)) ∧
      (∀ i, decode (s.cell s.pc) = .ok i → s.firstParamFault i = none →
        (∀ a b dst, i = .add a b dst → fits ((s.operand 1 a).toInt + (s.operand 2 b).toInt) = false →
          step s = .next (s.raise { code := .arithmeticOverflow, param := 0, value := 0 })) ∧
        (∀ a b dst, i = .mul a b dst → fits ((s.operand 1 a).toInt * (s.operand 2 b).toInt) = false →
          step s = .next (s.raise { code := .arithmeticOverflow, param := 0, value := 0 })) ∧
        (∀ a, i = .arb a → fits (s.rb.toInt + (s.operand 1 a).toInt) = false →
          step s = .next (s.raise { code := .arithmeticOverflow, param := 1, value := 0 })) ∧
        (∀ dst, i = .inp dst → s.queue = [] → s.policy = .fatal →
          step s = .next (s.raise { code := .inputUnderflow, param := 1, value := 0 })) ∧
        (∀ a b, i = .jt a b ∧ s.operand 1 a ≠ 0 ∨ i = .jf a b ∧ s.operand 1 a = 0 →
          ¬ (0 ≤ (s.operand 2 b).toInt ∧ (s.operand 2 b).toInt < s.params.memLimit) →
          step s = .next
            (s.raise { code := .addressOutOfRange, param := 2, value := (s.operand 2 b).toInt }))))

/-- Fault entry (R27, R87, R157): the FAULT record is written, with `pc` and the word at `pc`, STATUS is Faulted, the
response is the record; nothing else changes. R27 has FAULT.word the instruction word fetched; that it is the word at `pc`
in any state in which a fault is taken, a step's or not, is the model's choice (log entry 3). -/
def Obligations.FaultEntryWritesRecord : Prop :=
  ∀ (s : State) (f : FaultInfo), s.pc < s.params.memLimit →
    s.raise f =
      { s with
        status := .faulted
        fault := { code := f.code, pc := s.pc, word := s.cell s.pc, param := f.param, value := f.value }
        responses := s.responses ++
          [.fault { code := f.code, pc := s.pc, word := s.cell s.pc, param := f.param, value := f.value }] }

/-- Faults are precise (R158): a step that ends Faulted leaves memory, `pc`, `rb`, the queue, the policy and the host's
commands as they were, and its record holds a code and the `pc` of the faulting instruction. -/
def Obligations.FaultsArePrecise : Prop :=
  ∀ s t : State, s.status = .running → step s = .next t → t.status = .faulted →
    t.fault.code ≠ .none ∧ t.fault.pc = s.pc ∧ t.responses = s.responses ++ [.fault t.fault] ∧
      { t with status := s.status, fault := s.fault, responses := s.responses } = s

/-- Every step answers a next state: no instruction, no fault of the spec and no host command stops the model. -/
def Obligations.StepAlwaysAnswers : Prop :=
  ∀ s : State, ∃ t, step s = .next t

/-- An ADVANCE responds exactly when it ends (R83): a step of a running instance either goes on running and gives no
response, or ends the ADVANCE and gives one. -/
def Obligations.AdvanceRespondsOnceAtItsEnd : Prop :=
  ∀ s t : State, s.status = .running → step s = .next t →
    (t.status = .running ∧ t.responses = s.responses) ∨
    (t.status ≠ .running ∧ ∃ r, t.responses = s.responses ++ [r])

/-- One ADVANCE yields at most one response (R83, R111), over any number of steps: as long as every state before the
last is running, the last either still runs, with no response since, or has ended the ADVANCE with one. -/
def Obligations.AdvanceRunYieldsOneResponse : Prop :=
  ∀ (n : Nat) (s t : State), s.status = .running →
    (∀ (k : Nat) (u : State), k < n → Sys2Proof.core.run k s = .next u → State.status u = .running) →
    Sys2Proof.core.run n s = .next t →
    (State.status t = .running ∧ State.responses t = s.responses) ∨
    (State.status t ≠ .running ∧ ∃ r, State.responses t = s.responses ++ [r])

/-- An ADVANCE is suspended by output and, under `Block`, by input with an empty queue, and by nothing else (R110, R111):
the step that leaves STATUS Ready is an `out`, whose response is its operand, or such an `in`, which changes nothing. -/
def Obligations.OnlyOutputAndBlockedInputSuspend : Prop :=
  ∀ s t : State, s.status = .running → step s = .next t → t.status = .ready →
    (∃ a, decode (s.cell s.pc) = .ok (.out a) ∧
      t = { s with pc := s.pc + 2, status := .ready, responses := s.responses ++ [.output (s.operand 1 a)] }) ∨
    (∃ dst, decode (s.cell s.pc) = .ok (.inp dst) ∧ s.queue = [] ∧ s.policy = .block ∧
      t = { s with status := .ready, responses := s.responses ++ [.needInput] })

/-- Only adjust-base writes `rb` while the engine runs (R23, R140). -/
def Obligations.OnlyAdjustBaseWritesRb : Prop :=
  ∀ s t : State, s.status = .running → step s = .next t → t.rb ≠ s.rb →
    ∃ a, decode (s.cell s.pc) = .ok (.arb a) ∧ t.rb.toInt = s.rb.toInt + (s.operand 1 a).toInt

/-- Memory changes, while the engine runs, only at the one target cell of an instruction that stores (R33, R51). -/
def Obligations.OnlyStoreTargetChanges : Prop :=
  ∀ (s t : State) (x : Nat), s.mem.wf = true → s.status = .running → step s = .next t → t.cell x ≠ s.cell x →
    ∃ i, decode (s.cell s.pc) = .ok i ∧ s.storeTarget i = some x

/-- The engine takes from the queue only by the input operation, and only its front (R24); it never appends. -/
def Obligations.OnlyInputTakesFromQueue : Prop :=
  ∀ s t : State, s.status = .running → step s = .next t → t.queue ≠ s.queue →
    ∃ dst v, decode (s.cell s.pc) = .ok (.inp dst) ∧ s.queue = v :: t.queue

/-- No instruction but input depends on the queue or on the policy (R24, R28): with others in their place, the same next
state follows with those others in it. -/
def Obligations.OnlyInputReadsQueueAndPolicy : Prop :=
  ∀ (i : Instr) (s t : State) (q : List Word) (p : Policy), (∀ dst, i ≠ .inp dst) → exec i s = .next t →
    exec i { s with queue := q, policy := p } = .next { t with queue := q, policy := p }

/-- No instruction writes the policy, the machine's parameters or the host's commands (R28, R82). -/
def Obligations.EngineKeepsConfiguration : Prop :=
  ∀ s t : State, s.status = .running → step s = .next t →
    t.policy = s.policy ∧ t.params = s.params ∧ t.commands = s.commands

/-- Instruction-fetch coherence (R54): when an `add` stores a word into the very next cell to be fetched, and that word
decodes to an instruction, the next step is that instruction. -/
def Obligations.StoreSeenByNextFetch : Prop :=
  ∀ (s : State) (a b dst : Mode) (w : Word) (j : Instr), s.mem.wf = true → s.status = .running →
    s.pc < s.params.memLimit → decode (s.cell s.pc) = .ok (.add a b dst) →
    s.readable 1 a → s.readable 2 b → s.targetable 3 dst → s.target 3 dst = s.pc + 4 →
    w.toInt = (s.operand 1 a).toInt + (s.operand 2 b).toInt → decode w = .ok j →
    ∃ t, step s = .next t ∧ t.pc = s.pc + 4 ∧ step t = exec j t

/-- A program that never suspends hangs (R86): a taken jump to its own address leaves the state exactly as it is, so the
same step follows for ever. -/
def Obligations.SelfJumpHangs : Prop :=
  ∀ (s : State) (a b : Mode), s.status = .running → s.pc < s.params.memLimit →
    decode (s.cell s.pc) = .ok (.jt a b) → s.readable 1 a → s.readable 2 b →
    (s.operand 1 a).toInt ≠ 0 → (s.operand 2 b).toInt = s.pc → step s = .next s

/-! ## STATUS -/

/-- The transitions of STATUS (R26): Ready to Running when an ADVANCE is issued, Running to Ready, Halted or Faulted at
its end, any other value but Running to Ready by a LOAD; otherwise STATUS keeps its value. -/
def Obligations.StatusTransitions : Prop :=
  ∀ s t : State, step s = .next t →
    t.status = s.status ∨
    (s.status = .ready ∧ t.status = .running ∧ ∃ rest, s.commands = .advance :: rest) ∨
    s.status = .running ∨
    (t.status = .ready ∧ ∃ program policy rest, s.commands = .load program policy :: rest)

/-- Halted and Faulted are left only by LOAD, and the FAULT record and `pc` are kept until then (R26, R27, R159). -/
def Obligations.OnlyLoadLeavesTerminalStatus : Prop :=
  ∀ s t : State, s.status = .halted ∨ s.status = .faulted → step s = .next t →
    (∀ program policy rest, s.commands ≠ .load program policy :: rest) →
    t.status = s.status ∧ t.fault = s.fault ∧ t.pc = s.pc ∧ t.rb = s.rb

/-- ADVANCE by STATUS (R83 to R85): a Ready instance begins to run, a Halted one responds `Halted`, a Faulted one
responds with its FAULT record; nothing else changes. That the start of a Ready instance is a step of its own, which only
sets STATUS to Running and uses the command up, is the model's choice (log entry 4). -/
def Obligations.AdvanceByStatus : Prop :=
  ∀ (s : State) (rest : List Command), s.commands = .advance :: rest →
    (s.status = .ready → step s = .next { s with commands := rest, status := .running }) ∧
    (s.status = .halted →
      step s = .next { s with commands := rest, responses := s.responses ++ [.halted] }) ∧
    (s.status = .faulted →
      step s = .next { s with commands := rest, responses := s.responses ++ [.fault s.fault] })

/-- Between commands the machine holds its state (R80): with no command to issue, a step of an instance that is not
running changes nothing. -/
def Obligations.IdleHoldsState : Prop :=
  ∀ s : State, s.status ≠ .running → s.commands = [] → step s = .next s

/-! ## The other host commands -/

/-- LOAD (R32, R180, R181). It is accepted when every element is a word, the program fits and the policy is 0, 1 or 2:
then memory is the program's image with 0 beyond it, `pc` and `rb` are 0, the queue is empty, STATUS is Ready, FAULT is
clear and the policy is the one named, whatever the state before. Otherwise nothing changes but the response. -/
def Obligations.LoadResetsEverything : Prop :=
  ∀ (s : State) (program : List Int) (policy : BitVec 2) (rest : List Command),
    s.status ≠ .running → s.commands = .load program policy :: rest →
    ((∀ v ∈ program, wMin ≤ v ∧ v ≤ wMax) → program.length ≤ s.params.memLimit → policy ≠ 3 →
      ∃ t, step s = .next t ∧
        (∀ (a : Nat) (v : Int), program[a]? = some v → (t.cell a).toInt = v) ∧
        (∀ a, program.length ≤ a → t.cell a = 0) ∧
        t.pc = 0 ∧ t.rb = 0 ∧ t.queue = [] ∧ t.status = .ready ∧ t.fault = FaultRecord.clear ∧
        t.policy.code = policy ∧ t.params = s.params ∧ t.commands = rest ∧ t.responses = s.responses ++ [.ok]) ∧
    (¬ ((∀ v ∈ program, wMin ≤ v ∧ v ≤ wMax) ∧ program.length ≤ s.params.memLimit ∧ policy ≠ 3) →
      step s = .next { s with commands := rest, responses := s.responses ++ [.rejected .badProgram] })

/-- PUSH_INPUT (R93): with room the word joins the back of the queue; at capacity it is refused. Either way nothing else
changes, and STATUS does not matter. -/
def Obligations.PushInputAppends : Prop :=
  ∀ (s : State) (v : Word) (rest : List Command), s.status ≠ .running → s.commands = .pushInput v :: rest →
    ((∀ c, s.params.queueCapacity = some c → s.queue.length < c) →
      step s = .next { s with commands := rest, queue := s.queue ++ [v], responses := s.responses ++ [.ok] }) ∧
    (∀ c, s.params.queueCapacity = some c → c ≤ s.queue.length →
      step s = .next { s with commands := rest, responses := s.responses ++ [.rejected .queueFull] })

/-- PATCH (R94): at an address the one cell takes the word and no register changes; at any other integer it is refused.
STATUS does not matter. -/
def Obligations.PatchWritesOneCell : Prop :=
  ∀ (s : State) (a : Int) (v : Word) (rest : List Command), s.mem.wf = true → s.status ≠ .running →
    s.commands = .patch a v :: rest →
    (0 ≤ a → a < s.params.memLimit →
      ∃ t, step s = .next t ∧ t.cell a.toNat = v ∧ (∀ x, x ≠ a.toNat → t.cell x = s.cell x) ∧
        t.commands = rest ∧ t.responses = s.responses ++ [.ok] ∧
        { t with mem := s.mem, commands := s.commands, responses := s.responses } = s) ∧
    (¬ (0 ≤ a ∧ a < s.params.memLimit) →
      step s = .next { s with commands := rest, responses := s.responses ++ [.rejected .badAddress] })

/-- PEEK (R95) changes nothing but the response, which is the selected value: a cell (0 where nothing was written), a
register, the queue, STATUS, FAULT or the policy. A non-address is refused; for which of two reasons the spec does not
say (log entry 6). -/
def Obligations.PeekOnlyAnswers : Prop :=
  ∀ (s : State) (selector : Selector) (rest : List Command), s.status ≠ .running →
    s.commands = .peek selector :: rest →
    ∃ r, step s = .next { s with commands := rest, responses := s.responses ++ [r] } ∧
      (∀ a : Nat, selector = .memory a → a < s.params.memLimit → r = .peeked (.word (s.cell a))) ∧
      (∀ a : Int, selector = .memory a → ¬ (0 ≤ a ∧ a < s.params.memLimit) →
        r = .rejected .badAddress ∨ r = .rejected .badSelector) ∧
      (selector = .pc → r = .peeked (.number s.pc)) ∧
      (selector = .rb → r = .peeked (.word s.rb)) ∧
      (selector = .queueLength → r = .peeked (.number s.queue.length)) ∧
      (selector = .queueEntries → r = .peeked (.words s.queue)) ∧
      (selector = .status → r = .peeked (.status s.status)) ∧
      (selector = .fault → r = .peeked (.fault s.fault)) ∧
      (selector = .policy → r = .peeked (.policy s.policy))

/-- A blocked input completes once the host pushes a value (R110, R168): NeedInput, then PUSH_INPUT, then ADVANCE, and
the same instruction stores the pushed value, every other cell, `rb` and the queue being as before. The count of four steps
is the model's: PUSH_INPUT takes a step, and the ADVANCE that starts the Ready instance takes one of its own (`t2` to `t3`),
which only sets STATUS to Running and uses the command up (log entry 4). -/
def Obligations.BlockedInputResumes : Prop :=
  ∀ (s : State) (dst : Mode) (v : Word) (rest : List Command), s.mem.wf = true → s.status = .running →
    s.pc < s.params.memLimit → decode (s.cell s.pc) = .ok (.inp dst) → s.targetable 1 dst →
    s.queue = [] → s.policy = .block → s.params.queueCapacity ≠ some 0 →
    s.commands = .pushInput v :: .advance :: rest →
    ∃ t1 t2 t3 t4, step s = .next t1 ∧ step t1 = .next t2 ∧ step t2 = .next t3 ∧ step t3 = .next t4 ∧
      t4.cell (s.target 1 dst) = v ∧ (∀ x, x ≠ s.target 1 dst → t4.cell x = s.cell x) ∧
      t4.pc = s.pc + 2 ∧ t4.rb = s.rb ∧ t4.queue = [] ∧ t4.status = .running ∧
      t4.responses = s.responses ++ [.needInput, .ok]

/-! ## Reset, invariant, interface, instances -/

/-- Reset leaves the values R32 gives: every cell 0 after LOAD of an empty program, `pc` and `rb` 0, the queue empty,
STATUS Ready, FAULT clear. (The policy, `Fatal`, is the model's choice: log entry 5.) -/
def Obligations.ResetValues : Prop :=
  (∀ a, State.reset.cell a = 0) ∧ State.reset.pc = 0 ∧ State.reset.rb = 0 ∧ State.reset.queue = [] ∧
    State.reset.status.code = 0 ∧
    State.reset.fault.code.code = 0 ∧ State.reset.fault.pc = 0 ∧ State.reset.fault.word = 0 ∧
    State.reset.fault.param = 0 ∧ State.reset.fault.value = 0

/-- The invariant holds at reset. -/
def Obligations.ResetSatisfiesInv : Prop := State.reset.Inv

/-- Every step keeps the invariant: canonical memory within the limit, `pc` in `0 .. MEM_LIMIT` (R22), the queue within
its capacity (R24), FAULT recorded exactly when STATUS is Faulted and else clear (R27), at the faulting `pc` (R157),
with a value of `WORD_BITS + 1` bits. -/
def Obligations.StepKeepsInv : Prop :=
  ∀ s t : State, s.Inv → step s = .next t → t.Inv

/-- The widths of R22 and R27 suffice: under the invariant the bits of `pc` and of the FAULT record on the interface
give back the values. How the bits encode them, FAULT.value in two's complement, is the model's choice (log entry 15). -/
def Obligations.FaultRecordFitsItsBits : Prop :=
  ∀ s : State, s.Inv →
    (BitVec.ofNat Config.pcBits s.pc).toNat = s.pc ∧ s.fault.bits.pc.toNat = s.fault.pc ∧
      s.fault.bits.word = s.fault.word ∧ s.fault.bits.param.toNat = s.fault.param.val ∧
      s.fault.bits.value.toInt = s.fault.value

/-- The numbers of R26, R28, R97 and R150 on the interface. -/
def Obligations.InterfaceCodes : Prop :=
  Status.code .ready = 0 ∧ Status.code .halted = 1 ∧ Status.code .faulted = 2 ∧ Status.code .running = 3 ∧
  Policy.code .fatal = 0 ∧ Policy.code .defaultZero = 1 ∧ Policy.code .block = 2 ∧ Policy.ofCode 3 = none ∧
  (∀ p : Policy, Policy.ofCode p.code = some p) ∧
  FaultCode.code .none = 0 ∧ FaultCode.code .illegalOpcode = 1 ∧ FaultCode.code .illegalAddressingMode = 2 ∧
  FaultCode.code .inputUnderflow = 3 ∧ FaultCode.code .addressOutOfRange = 4 ∧
  FaultCode.code .arithmeticOverflow = 5 ∧
  RejectReason.code .badProgram = 0 ∧ RejectReason.code .queueFull = 1 ∧ RejectReason.code .badAddress = 2 ∧
  RejectReason.code .badSelector = 3 ∧
  (∀ v, Response.advanceData (.output v) = some { kind := 0, value := v, fault := none }) ∧
  Response.advanceData .halted = some { kind := 1, value := 0, fault := none } ∧
  Response.advanceData .needInput = some { kind := 2, value := 0, fault := none } ∧
  (∀ f, Response.advanceData (.fault f) = some { kind := 3, value := 0, fault := some f })

/-- Instances share nothing and never run concurrently (R12, R31, R166): an instance takes its turn only when no other is
inside an ADVANCE, goes then as it would alone, and every other instance keeps its whole state; while another runs,
nothing happens. -/
def Obligations.InstancesShareNothing : Prop :=
  ∀ (xs ys : List State) (k : Nat) (s : State), xs[k]? = some s → stepInstance xs k = .next ys →
    ((∀ (j : Nat) (u : State), j ≠ k → xs[j]? = some u → u.status ≠ .running) →
      ∃ t, step s = .next t ∧ ys[k]? = some t) ∧
    (∀ (j : Nat) (u : State), j ≠ k → xs[j]? = some u → u.status = .running → ys = xs) ∧
    ys.length = xs.length ∧ ∀ j, j ≠ k → ys[j]? = xs[j]?

/-- Instances never run concurrently (R12): a turn of any instance keeps it so that at most one of them is inside an
ADVANCE. -/
def Obligations.InstancesNeverRunConcurrently : Prop :=
  ∀ (xs ys : List State) (k : Nat), oneRunsAtMost xs → stepInstance xs k = .next ys → oneRunsAtMost ys
end

