-- ==== Sys2Proof/Laws/Decode.lean ====
section
/-! SUPPORT. What the parts of the decoder answer, and that a rejection's value is small. -/

namespace Sys2Proof

theorem digit_le (n k : Nat) : digit n k ≤ 9 := by unfold digit; omega

theorem Mode.ofDigit_toDigit (m : Mode) : Mode.ofDigit m.toDigit = some m := by cases m <;> rfl

theorem Mode.ofDigit_eq_some {d : Nat} {m : Mode} : Mode.ofDigit d = some m ↔ d = m.toDigit := by
  constructor
  · intro h
    match d, h with
    | 0, h => cases h; rfl
    | 1, h => cases h; rfl
    | 2, h => cases h; rfl
  · rintro rfl; exact Mode.ofDigit_toDigit m

theorem Mode.ofDigit_eq_none {d : Nat} : Mode.ofDigit d = none ↔ 3 ≤ d := by
  match d with
  | 0 => simp [Mode.ofDigit]
  | 1 => simp [Mode.ofDigit]
  | 2 => simp [Mode.ofDigit]
  | d + 3 => simp [Mode.ofDigit]

theorem Mode.writable_iff {m : Mode} : m.writable = true ↔ m ≠ .immediate := by cases m <;> decide

/-- A read parameter's mode is the one its digit stands for (R62, R66). -/
theorem readMode_ok {n : Nat} {k : Fin 4} {m : Mode} : readMode n k = .ok m ↔ digit n (k.val + 1) = m.toDigit := by
  unfold readMode
  cases h : Mode.ofDigit (digit n (k.val + 1)) with
  | none =>
    simp only [reduceCtorEq, false_iff]
    intro e
    rw [e, Mode.ofDigit_toDigit] at h
    cases h
  | some m' =>
    rw [← Mode.ofDigit_eq_some, h]
    simp

/-- A write parameter's mode is the one its digit stands for, and names a cell (R62, R67). -/
theorem writeMode_ok {n : Nat} {k : Fin 4} {m : Mode} :
    writeMode n k = .ok m ↔ digit n (k.val + 1) = m.toDigit ∧ m.writable = true := by
  unfold writeMode
  cases h : Mode.ofDigit (digit n (k.val + 1)) with
  | none =>
    simp only [reduceCtorEq, false_iff]
    rintro ⟨e, -⟩
    rw [e, Mode.ofDigit_toDigit] at h
    cases h
  | some m' =>
    rw [← Mode.ofDigit_eq_some, h]
    show (if m'.writable then Except.ok m' else _) = Except.ok m ↔ _
    by_cases hw : m'.writable = true
    · rw [if_pos hw]
      exact ⟨fun e => (by cases e; exact ⟨rfl, hw⟩), fun e => (by cases e.1; rfl)⟩
    · rw [if_neg hw]
      exact ⟨fun e => (by cases e), fun e => (by cases e.1; exact absurd e.2 hw)⟩

/-- A read parameter is rejected for its digit, which is 3 or more (R66, R67). -/
theorem readMode_error {n : Nat} {k : Fin 4} {e : DecodeError} (h : readMode n k = .error e) :
    e = .illegalMode k (digit n (k.val + 1)) ∧ 3 ≤ digit n (k.val + 1) := by
  unfold readMode at h
  cases hd : Mode.ofDigit (digit n (k.val + 1)) with
  | none => rw [hd] at h; cases h; exact ⟨rfl, Mode.ofDigit_eq_none.1 hd⟩
  | some m => rw [hd] at h; cases h

/-- A write parameter is rejected for its digit, which is neither 0 nor 2 (R67). -/
theorem writeMode_error {n : Nat} {k : Fin 4} {e : DecodeError} (h : writeMode n k = .error e) :
    e = .illegalMode k (digit n (k.val + 1)) ∧ digit n (k.val + 1) ≠ 0 ∧ digit n (k.val + 1) ≠ 2 := by
  unfold writeMode at h
  cases hd : Mode.ofDigit (digit n (k.val + 1)) with
  | none =>
    rw [hd] at h; cases h
    have := Mode.ofDigit_eq_none.1 hd
    exact ⟨rfl, by omega, by omega⟩
  | some m =>
    rw [hd] at h
    rw [Mode.ofDigit_eq_some] at hd
    cases m <;> simp only [Mode.writable, if_true, Bool.false_eq_true, if_false, reduceCtorEq, Except.error.injEq] at h
    exact ⟨h.symm, by rw [hd]; decide, by rw [hd]; decide⟩

/-- The values a rejection can carry: a negative word, or a small number. -/
def DecodeError.small : DecodeError → Prop
  | .illegalOpcode v => -9223372036854775808 ≤ v ∧ v < 100
  | .illegalMode _ v => 0 ≤ v ∧ v < 10

theorem mode_error_small {n : Nat} {k : Fin 4} : (DecodeError.illegalMode k (digit n (k.val + 1))).small := by
  have := digit_le n (k.val + 1)
  simp only [DecodeError.small]
  omega

theorem readMode_small {n : Nat} {k : Fin 4} {e : DecodeError} (h : readMode n k = .error e) : e.small :=
  (readMode_error h).1 ▸ mode_error_small

theorem writeMode_small {n : Nat} {k : Fin 4} {e : DecodeError} (h : writeMode n k = .error e) : e.small :=
  (writeMode_error h).1 ▸ mode_error_small

theorem threeModes_small {n : Nat} {f : Mode → Mode → Mode → Instr} {e : DecodeError}
    (h : threeModes n f = .error e) : e.small := by
  unfold threeModes at h
  cases h1 : readMode n 1 with
  | error e1 => rw [h1] at h; cases h; exact readMode_small h1
  | ok a =>
    cases h2 : readMode n 2 with
    | error e2 => rw [h1, h2] at h; cases h; exact readMode_small h2
    | ok b =>
      cases h3 : writeMode n 3 with
      | error e3 => rw [h1, h2, h3] at h; cases h; exact writeMode_small h3
      | ok d => rw [h1, h2, h3] at h; cases h

theorem twoModes_small {n : Nat} {f : Mode → Mode → Instr} {e : DecodeError}
    (h : twoModes n f = .error e) : e.small := by
  unfold twoModes at h
  cases h1 : readMode n 1 with
  | error e1 => rw [h1] at h; cases h; exact readMode_small h1
  | ok a =>
    cases h2 : readMode n 2 with
    | error e2 => rw [h1, h2] at h; cases h; exact readMode_small h2
    | ok b => rw [h1, h2] at h; cases h

theorem map_error {α β : Type} {x : Except DecodeError α} {f : α → β} {e : DecodeError}
    (h : x.map f = .error e) : x = .error e := by
  cases x with
  | error e' => simpa [Except.map] using h
  | ok a => simp [Except.map] at h

theorem decodeNat_small {n : Nat} {e : DecodeError} (h : decodeNat n = .error e) : e.small := by
  unfold decodeNat at h
  split at h
  · exact threeModes_small h
  · exact threeModes_small h
  · exact writeMode_small (map_error h)
  · exact readMode_small (map_error h)
  · exact twoModes_small h
  · exact twoModes_small h
  · exact threeModes_small h
  · exact threeModes_small h
  · exact readMode_small (map_error h)
  · cases h
  · cases h
    have : n % 100 < 100 := Nat.mod_lt _ (by decide)
    simp only [DecodeError.small]
    omega

/-- A rejected word's value is a word. -/
theorem decode_small {w : Word} {e : DecodeError} (h : decode w = .error e) : e.small := by
  unfold decode at h
  split at h
  · cases h
    have := BitVec.le_toInt w
    simp only [DecodeError.small]
    omega
  · exact decodeNat_small h

end Sys2Proof
end

