-- ==== Sys2Proof/Laws/State.lean ====
section
/-! SUPPORT. What each field holds after each update of the state: one lemma a field and update, so that no proof
unfolds an update. -/

namespace Sys2Proof.Machine

open Sys2Proof

variable (s : State)

@[simp] theorem State.setCell_params (a : Nat) (v : Word) : (s.setCell a v).params = s.params := rfl
@[simp] theorem State.setCell_mem (a : Nat) (v : Word) : (s.setCell a v).mem = s.mem.write a v := rfl
@[simp] theorem State.setCell_pc (a : Nat) (v : Word) : (s.setCell a v).pc = s.pc := rfl
@[simp] theorem State.setCell_rb (a : Nat) (v : Word) : (s.setCell a v).rb = s.rb := rfl
@[simp] theorem State.setCell_queue (a : Nat) (v : Word) : (s.setCell a v).queue = s.queue := rfl
@[simp] theorem State.setCell_status (a : Nat) (v : Word) : (s.setCell a v).status = s.status := rfl
@[simp] theorem State.setCell_fault (a : Nat) (v : Word) : (s.setCell a v).fault = s.fault := rfl
@[simp] theorem State.setCell_policy (a : Nat) (v : Word) : (s.setCell a v).policy = s.policy := rfl
@[simp] theorem State.setCell_commands (a : Nat) (v : Word) : (s.setCell a v).commands = s.commands := rfl
@[simp] theorem State.setCell_responses (a : Nat) (v : Word) : (s.setCell a v).responses = s.responses := rfl

@[simp] theorem State.setPc_params (v : Nat) : (s.setPc v).params = s.params := rfl
@[simp] theorem State.setPc_mem (v : Nat) : (s.setPc v).mem = s.mem := rfl
@[simp] theorem State.setPc_pc (v : Nat) : (s.setPc v).pc = v := rfl
@[simp] theorem State.setPc_rb (v : Nat) : (s.setPc v).rb = s.rb := rfl
@[simp] theorem State.setPc_queue (v : Nat) : (s.setPc v).queue = s.queue := rfl
@[simp] theorem State.setPc_status (v : Nat) : (s.setPc v).status = s.status := rfl
@[simp] theorem State.setPc_fault (v : Nat) : (s.setPc v).fault = s.fault := rfl
@[simp] theorem State.setPc_policy (v : Nat) : (s.setPc v).policy = s.policy := rfl
@[simp] theorem State.setPc_commands (v : Nat) : (s.setPc v).commands = s.commands := rfl
@[simp] theorem State.setPc_responses (v : Nat) : (s.setPc v).responses = s.responses := rfl

@[simp] theorem State.setRb_params (v : Word) : (s.setRb v).params = s.params := rfl
@[simp] theorem State.setRb_mem (v : Word) : (s.setRb v).mem = s.mem := rfl
@[simp] theorem State.setRb_pc (v : Word) : (s.setRb v).pc = s.pc := rfl
@[simp] theorem State.setRb_rb (v : Word) : (s.setRb v).rb = v := rfl
@[simp] theorem State.setRb_queue (v : Word) : (s.setRb v).queue = s.queue := rfl
@[simp] theorem State.setRb_status (v : Word) : (s.setRb v).status = s.status := rfl
@[simp] theorem State.setRb_fault (v : Word) : (s.setRb v).fault = s.fault := rfl
@[simp] theorem State.setRb_policy (v : Word) : (s.setRb v).policy = s.policy := rfl
@[simp] theorem State.setRb_commands (v : Word) : (s.setRb v).commands = s.commands := rfl
@[simp] theorem State.setRb_responses (v : Word) : (s.setRb v).responses = s.responses := rfl

@[simp] theorem State.setQueue_params (q : List Word) : (s.setQueue q).params = s.params := rfl
@[simp] theorem State.setQueue_mem (q : List Word) : (s.setQueue q).mem = s.mem := rfl
@[simp] theorem State.setQueue_pc (q : List Word) : (s.setQueue q).pc = s.pc := rfl
@[simp] theorem State.setQueue_rb (q : List Word) : (s.setQueue q).rb = s.rb := rfl
@[simp] theorem State.setQueue_queue (q : List Word) : (s.setQueue q).queue = q := rfl
@[simp] theorem State.setQueue_status (q : List Word) : (s.setQueue q).status = s.status := rfl
@[simp] theorem State.setQueue_fault (q : List Word) : (s.setQueue q).fault = s.fault := rfl
@[simp] theorem State.setQueue_policy (q : List Word) : (s.setQueue q).policy = s.policy := rfl
@[simp] theorem State.setQueue_commands (q : List Word) : (s.setQueue q).commands = s.commands := rfl
@[simp] theorem State.setQueue_responses (q : List Word) : (s.setQueue q).responses = s.responses := rfl

@[simp] theorem State.setStatus_params (v : Status) : (s.setStatus v).params = s.params := rfl
@[simp] theorem State.setStatus_mem (v : Status) : (s.setStatus v).mem = s.mem := rfl
@[simp] theorem State.setStatus_pc (v : Status) : (s.setStatus v).pc = s.pc := rfl
@[simp] theorem State.setStatus_rb (v : Status) : (s.setStatus v).rb = s.rb := rfl
@[simp] theorem State.setStatus_queue (v : Status) : (s.setStatus v).queue = s.queue := rfl
@[simp] theorem State.setStatus_status (v : Status) : (s.setStatus v).status = v := rfl
@[simp] theorem State.setStatus_fault (v : Status) : (s.setStatus v).fault = s.fault := rfl
@[simp] theorem State.setStatus_policy (v : Status) : (s.setStatus v).policy = s.policy := rfl
@[simp] theorem State.setStatus_commands (v : Status) : (s.setStatus v).commands = s.commands := rfl
@[simp] theorem State.setStatus_responses (v : Status) : (s.setStatus v).responses = s.responses := rfl

@[simp] theorem State.respond_params (r : Response) : (s.respond r).params = s.params := rfl
@[simp] theorem State.respond_mem (r : Response) : (s.respond r).mem = s.mem := rfl
@[simp] theorem State.respond_pc (r : Response) : (s.respond r).pc = s.pc := rfl
@[simp] theorem State.respond_rb (r : Response) : (s.respond r).rb = s.rb := rfl
@[simp] theorem State.respond_queue (r : Response) : (s.respond r).queue = s.queue := rfl
@[simp] theorem State.respond_status (r : Response) : (s.respond r).status = s.status := rfl
@[simp] theorem State.respond_fault (r : Response) : (s.respond r).fault = s.fault := rfl
@[simp] theorem State.respond_policy (r : Response) : (s.respond r).policy = s.policy := rfl
@[simp] theorem State.respond_commands (r : Response) : (s.respond r).commands = s.commands := rfl
@[simp] theorem State.respond_responses (r : Response) : (s.respond r).responses = s.responses ++ [r] := rfl

@[simp] theorem State.raise_params (f : FaultInfo) : (s.raise f).params = s.params := rfl
@[simp] theorem State.raise_mem (f : FaultInfo) : (s.raise f).mem = s.mem := rfl
@[simp] theorem State.raise_pc (f : FaultInfo) : (s.raise f).pc = s.pc := rfl
@[simp] theorem State.raise_rb (f : FaultInfo) : (s.raise f).rb = s.rb := rfl
@[simp] theorem State.raise_queue (f : FaultInfo) : (s.raise f).queue = s.queue := rfl
@[simp] theorem State.raise_status (f : FaultInfo) : (s.raise f).status = .faulted := rfl
@[simp] theorem State.raise_fault (f : FaultInfo) : (s.raise f).fault = s.recordOf f := rfl
@[simp] theorem State.raise_policy (f : FaultInfo) : (s.raise f).policy = s.policy := rfl
@[simp] theorem State.raise_commands (f : FaultInfo) : (s.raise f).commands = s.commands := rfl
@[simp] theorem State.raise_responses (f : FaultInfo) : (s.raise f).responses = s.responses ++ [.fault (s.recordOf f)] := rfl

@[simp] theorem State.reject_params (r : RejectReason) : (s.reject r).params = s.params := rfl
@[simp] theorem State.reject_mem (r : RejectReason) : (s.reject r).mem = s.mem := rfl
@[simp] theorem State.reject_pc (r : RejectReason) : (s.reject r).pc = s.pc := rfl
@[simp] theorem State.reject_rb (r : RejectReason) : (s.reject r).rb = s.rb := rfl
@[simp] theorem State.reject_queue (r : RejectReason) : (s.reject r).queue = s.queue := rfl
@[simp] theorem State.reject_status (r : RejectReason) : (s.reject r).status = s.status := rfl
@[simp] theorem State.reject_fault (r : RejectReason) : (s.reject r).fault = s.fault := rfl
@[simp] theorem State.reject_policy (r : RejectReason) : (s.reject r).policy = s.policy := rfl
@[simp] theorem State.reject_commands (r : RejectReason) : (s.reject r).commands = s.commands := rfl
@[simp] theorem State.reject_responses (r : RejectReason) : (s.reject r).responses = s.responses ++ [.rejected r] := rfl

/-! The fields no ending of a step writes. -/

@[simp] theorem State.conclude_params (e : StepEnd) : (s.conclude e).params = s.params := by cases e <;> rfl
@[simp] theorem State.conclude_mem (e : StepEnd) : (s.conclude e).mem = s.mem := by cases e <;> rfl
@[simp] theorem State.conclude_pc (e : StepEnd) : (s.conclude e).pc = s.pc := by cases e <;> rfl
@[simp] theorem State.conclude_rb (e : StepEnd) : (s.conclude e).rb = s.rb := by cases e <;> rfl
@[simp] theorem State.conclude_queue (e : StepEnd) : (s.conclude e).queue = s.queue := by cases e <;> rfl
@[simp] theorem State.conclude_fault (e : StepEnd) : (s.conclude e).fault = s.fault := by cases e <;> rfl
@[simp] theorem State.conclude_policy (e : StepEnd) : (s.conclude e).policy = s.policy := by cases e <;> rfl
@[simp] theorem State.conclude_commands (e : StepEnd) : (s.conclude e).commands = s.commands := by cases e <;> rfl

@[simp] theorem State.conclude_proceed : s.conclude .proceed = s := rfl
@[simp] theorem State.conclude_output (v : Word) :
    s.conclude (.output v) = (s.setStatus .ready).respond (.output v) := rfl
@[simp] theorem State.conclude_needInput : s.conclude .needInput = (s.setStatus .ready).respond .needInput := rfl
@[simp] theorem State.conclude_halted : s.conclude .halted = (s.setStatus .halted).respond .halted := rfl

/-! The FAULT record's fields (R27). -/

@[simp] theorem State.recordOf_code (f : FaultInfo) : (s.recordOf f).code = f.code := rfl
@[simp] theorem State.recordOf_pc (f : FaultInfo) : (s.recordOf f).pc = s.pc := rfl
@[simp] theorem State.recordOf_word (f : FaultInfo) : (s.recordOf f).word = s.fetchedWord := rfl
@[simp] theorem State.recordOf_param (f : FaultInfo) : (s.recordOf f).param = f.param := rfl
@[simp] theorem State.recordOf_value (f : FaultInfo) : (s.recordOf f).value = f.value := rfl

end Sys2Proof.Machine
end

