-- ==== Sys2Proof/Laws/Memory.lean ====
section
/-! SUPPORT. The laws of memory (R41 to R43): every operation keeps the canonical form and the bound, a read after a
write, a read of a program's image, and equal reads mean equal memories. -/

namespace Sys2Proof.Machine

open Sys2Proof

theorem Memory.wfFrom_cons {lo a : Nat} {v : Word} {m : Memory} :
    Memory.wfFrom lo ((a, v) :: m) = true ↔ lo ≤ a ∧ v ≠ Memory.unlisted ∧ Memory.wfFrom (a + 1) m = true := by
  simp [Memory.wfFrom]

theorem Memory.wfFrom_mono {lo hi : Nat} {m : Memory} (h : Memory.wfFrom hi m = true) (le : lo ≤ hi) :
    Memory.wfFrom lo m = true := by
  cases m with
  | nil => rfl
  | cons c m => rw [Memory.wfFrom_cons] at h ⊢; exact ⟨by omega, h.2⟩

/-- An address below every listed one holds the unlisted word. -/
theorem Memory.read_below {lo a : Nat} {m : Memory} (h : Memory.wfFrom lo m = true) (lt : a < lo) :
    m.read a = Memory.unlisted := by
  induction m generalizing lo with
  | nil => rfl
  | cons c m ih =>
    rw [Memory.wfFrom_cons] at h
    have ne : a ≠ c.1 := by omega
    simp only [Memory.read, if_neg ne]
    exact ih h.2.2 (by omega)

theorem Memory.write_wfFrom {lo a : Nat} {v : Word} {m : Memory} (h : Memory.wfFrom lo m = true) (le : lo ≤ a) :
    Memory.wfFrom lo (m.write a v) = true := by
  induction m generalizing lo with
  | nil => by_cases hv : v = Memory.unlisted <;> simp [Memory.write, hv, Memory.wfFrom, le]
  | cons c m ih =>
    obtain ⟨b, w⟩ := c
    have h' := h
    rw [Memory.wfFrom_cons] at h
    obtain ⟨hlo, hw, hm⟩ := h
    unfold Memory.write
    split
    · split
      · exact h'
      · next hv => exact Memory.wfFrom_cons.2 ⟨le, hv, Memory.wfFrom_cons.2 ⟨by omega, hw, hm⟩⟩
    · split
      · split
        · exact Memory.wfFrom_mono hm (by omega)
        · next hv => exact Memory.wfFrom_cons.2 ⟨le, hv, Memory.wfFrom_mono hm (by omega)⟩
      · exact Memory.wfFrom_cons.2 ⟨hlo, hw, ih hm (by omega)⟩

/-- A write keeps the canonical form. -/
theorem Memory.write_wf {a : Nat} {v : Word} {m : Memory} (h : m.wf = true) : (m.write a v).wf = true :=
  Memory.write_wfFrom h (Nat.zero_le a)

/-- A write to an address keeps every listed cell an address. -/
theorem Memory.write_below {limit a : Nat} {v : Word} {m : Memory} (h : m.below limit = true) (lt : a < limit) :
    (m.write a v).below limit = true := by
  induction m with
  | nil => by_cases hv : v = Memory.unlisted <;> simp [Memory.write, hv, Memory.below, lt]
  | cons c m ih =>
    obtain ⟨b, w⟩ := c
    simp only [Memory.below, List.all_cons, Bool.and_eq_true, decide_eq_true_eq] at h ih ⊢
    unfold Memory.write
    split
    · split <;> simp [lt, h]
    · split
      · split <;> simp [lt, h]
      · simp only [List.all_cons, Bool.and_eq_true, decide_eq_true_eq]
        exact ⟨h.1, ih h.2⟩

theorem Memory.read_write_from {lo a b : Nat} {v : Word} {m : Memory} (h : Memory.wfFrom lo m = true) (le : lo ≤ a) :
    (m.write a v).read b = if b = a then v else m.read b := by
  induction m generalizing lo with
  | nil =>
    by_cases hv : v = Memory.unlisted
    · simp [Memory.write, hv, Memory.read]
    · simp [Memory.write, hv, Memory.read]
  | cons c m ih =>
    obtain ⟨x, w⟩ := c
    have h' := h
    rw [Memory.wfFrom_cons] at h
    obtain ⟨hlo, -, hm⟩ := h
    unfold Memory.write
    split
    · next hax =>
      split
      · next hv =>
        split
        · next hba => rw [hba, hv]; exact Memory.read_below (Memory.wfFrom_cons.2 ⟨Nat.le_refl x, (Memory.wfFrom_cons.1 h').2⟩) hax
        · rfl
      · simp [Memory.read]
    · split
      · next hax =>
        subst hax
        split
        · next hv =>
          split
          · next hba => rw [hba, hv]; exact Memory.read_below hm (by omega)
          · next hba => simp [Memory.read, hba]
        · by_cases hba : b = a <;> simp [Memory.read, hba]
      · next hlt hne =>
        simp only [Memory.read]
        by_cases hbx : b = x
        · have : b ≠ a := by omega
          simp [hbx]; omega
        · simp only [if_neg hbx]; exact ih hm (by omega)

/-- A read after a write (R42, R43): the written word at its address, every other cell as before. -/
theorem Memory.read_write {a b : Nat} {v : Word} {m : Memory} (h : m.wf = true) :
    (m.write a v).read b = if b = a then v else m.read b :=
  Memory.read_write_from h (Nat.zero_le a)

theorem Memory.imageFrom_wf (a : Nat) (p : List Word) : Memory.wfFrom a (Memory.imageFrom a p) = true := by
  induction p generalizing a with
  | nil => rfl
  | cons v vs ih =>
    unfold Memory.imageFrom
    split
    · exact Memory.wfFrom_mono (ih (a + 1)) (by omega)
    · next hv => exact Memory.wfFrom_cons.2 ⟨Nat.le_refl a, hv, ih (a + 1)⟩

/-- A program's image is in canonical form. -/
theorem Memory.image_wf (p : List Word) : (Memory.image p).wf = true := Memory.imageFrom_wf 0 p

theorem Memory.imageFrom_below {a limit : Nat} {p : List Word} (h : a + p.length ≤ limit) :
    (Memory.imageFrom a p).below limit = true := by
  induction p generalizing a with
  | nil => rfl
  | cons v vs ih =>
    simp only [List.length_cons] at h
    have := ih (a := a + 1) (by omega)
    unfold Memory.imageFrom
    split
    · exact this
    · simp only [Memory.below, List.all_cons, Bool.and_eq_true, decide_eq_true_eq] at this ⊢
      exact ⟨by omega, this⟩

/-- A program that fits the memory lists addresses only. -/
theorem Memory.image_below {limit : Nat} {p : List Word} (h : p.length ≤ limit) :
    (Memory.image p).below limit = true :=
  Memory.imageFrom_below (by omega)

theorem Memory.read_imageFrom {a b : Nat} {p : List Word} (le : a ≤ b) :
    (Memory.imageFrom a p).read b = p.getD (b - a) Memory.unlisted := by
  induction p generalizing a with
  | nil => simp [Memory.imageFrom, Memory.read]
  | cons v vs ih =>
    rcases Nat.eq_or_lt_of_le le with rfl | lt
    · unfold Memory.imageFrom
      split
      · next hv => simpa [hv] using Memory.read_below (Memory.imageFrom_wf (a + 1) vs) (Nat.lt_succ_self a)
      · simp [Memory.read]
    · have step : b - a = (b - (a + 1)) + 1 := by omega
      have ne : b ≠ a := by omega
      have read : (Memory.imageFrom a (v :: vs)).read b = (Memory.imageFrom (a + 1) vs).read b := by
        rw [Memory.imageFrom]
        split
        · rfl
        · simp [Memory.read, ne]
      rw [read, step, List.getD_cons_succ, ih (a := a + 1) (by omega)]

/-- A read of a program's image (R41): the program's word, 0 beyond it. -/
theorem Memory.read_image (p : List Word) (a : Nat) : (Memory.image p).read a = p.getD a Memory.unlisted := by
  rw [Memory.image, Memory.read_imageFrom (Nat.zero_le a), Nat.sub_zero]

/-- Two memories in canonical form that read alike are the same memory. -/
theorem Memory.ext_of_wfFrom {lo : Nat} {m n : Memory} (hm : Memory.wfFrom lo m = true) (hn : Memory.wfFrom lo n = true)
    (h : ∀ a, m.read a = n.read a) : m = n := by
  induction m generalizing lo n with
  | nil =>
    cases n with
    | nil => rfl
    | cons c n =>
      obtain ⟨-, hv, -⟩ := Memory.wfFrom_cons.1 hn
      have := h c.1
      simp [Memory.read] at this
      exact absurd this.symm hv
  | cons c m ih =>
    obtain ⟨x, v⟩ := c
    obtain ⟨hlo, hv, hm'⟩ := Memory.wfFrom_cons.1 hm
    cases n with
    | nil => have := h x; simp [Memory.read] at this; exact absurd this hv
    | cons d n =>
      obtain ⟨y, w⟩ := d
      obtain ⟨hlo', hw, hn'⟩ := Memory.wfFrom_cons.1 hn
      have hxy : x = y := by
        rcases Nat.lt_trichotomy x y with lt | rfl | lt
        · have e := h x
          have : Memory.read ((y, w) :: n) x = Memory.unlisted :=
            Memory.read_below (Memory.wfFrom_cons.2 ⟨Nat.le_refl y, hw, hn'⟩) lt
          rw [this] at e
          simp [Memory.read] at e
          exact absurd e hv
        · rfl
        · have e := h y
          have : Memory.read ((x, v) :: m) y = Memory.unlisted :=
            Memory.read_below (Memory.wfFrom_cons.2 ⟨Nat.le_refl x, hv, hm'⟩) lt
          rw [this] at e
          simp [Memory.read] at e
          exact absurd e.symm hw
      subst hxy
      have hvw : v = w := by simpa [Memory.read] using h x
      subst hvw
      congr 1
      refine ih hm' hn' fun a => ?_
      rcases Nat.lt_or_ge a (x + 1) with lt | ge
      · rw [Memory.read_below hm' lt, Memory.read_below hn' lt]
      · have := h a
        have ne : a ≠ x := by omega
        simpa [Memory.read, ne] using this

/-- Memory at reset is in canonical form. -/
theorem State.reset_mem_wf : State.reset.mem.wf = true := rfl

end Sys2Proof.Machine
end

