-- ==== Sys2Proof/Laws/Ops.lean ====
section
/-! SUPPORT. What each shared operation can do: the address check, narrowing to a word, the end of a step. -/

namespace Sys2Proof.Machine

open Sys2Proof

/-! ## Words -/

/-- `WMIN` and `WMAX` are the ends of a `WORD_BITS`-bit signed range (R7). -/
theorem word_range : wMin = -2 ^ (Config.wordBits - 1) ∧ wMax = 2 ^ (Config.wordBits - 1) - 1 := by decide

theorem fits_iff {v : Int} : fits v = true ↔ wMin ≤ v ∧ v ≤ wMax := by simp [fits]

/-- The value of a word is a word (R8). -/
theorem fits_toInt (w : Word) : fits w.toInt = true := by
  have lo := BitVec.le_toInt w
  have hi := BitVec.toInt_lt (x := w)
  rw [fits_iff, wMin, wMax]
  constructor <;> omega

/-- A value that fits survives being carried as a word. -/
theorem toInt_toWord {v : Int} (h : fits v = true) : (toWord v).toInt = v := by
  obtain ⟨lo, hi⟩ := fits_iff.1 h
  rw [wMin] at lo
  rw [wMax] at hi
  rw [toWord, BitVec.toInt_ofInt, Int.bmod_eq_of_le] <;> omega

theorem toWord_toInt (w : Word) : toWord w.toInt = w := by simp [toWord]

/-- Two words with the same value are the same word. -/
theorem word_ext {v w : Word} (h : v.toInt = w.toInt) : v = w := BitVec.eq_of_toInt_eq h

theorem narrow_ok {v : Int} {p : Fin 4} (h : fits v = true) : narrow v p = .ok (toWord v) := by simp [narrow, h]

theorem narrow_error {v : Int} {p : Fin 4} (h : fits v = false) :
    narrow v p = .error { code := .arithmeticOverflow, param := p, value := 0 } := by simp [narrow, h]

/-! ## The address check -/

theorem State.isAddr_iff {s : State} {a : Int} : s.isAddr a = true ↔ 0 ≤ a ∧ a < s.params.memLimit := by
  simp [State.isAddr]

theorem State.isAddr_congr {s t : State} (h : t.params = s.params) (a : Int) : t.isAddr a = s.isAddr a := by
  simp [State.isAddr, h]

theorem addrCheck_ok {s : State} {a : Int} {p : Fin 4} (h : s.isAddr a = true) : addrCheck s a p = .ok a.toNat := by
  simp [addrCheck, h]

theorem addrCheck_error {s : State} {a : Int} {p : Fin 4} (h : s.isAddr a = false) :
    addrCheck s a p = .error { code := .addressOutOfRange, param := p, value := a } := by simp [addrCheck, h]

/-- The address of a natural number below the limit. -/
theorem addrCheck_nat {s : State} {a : Nat} {p : Fin 4} (h : a < s.params.memLimit) : addrCheck s a p = .ok a := by
  rw [addrCheck_ok (State.isAddr_iff.2 ⟨by omega, by omega⟩), Int.toNat_natCast]

/-! ## Cells -/

/-- A read after a write through the state (R42, R43). -/
theorem State.cell_setCell {s : State} {a b : Nat} {v : Word} (h : s.mem.wf = true) :
    (s.setCell a v).cell b = if b = a then v else s.cell b :=
  Memory.read_write h

@[simp] theorem State.cell_setPc (s : State) (v a : Nat) : (s.setPc v).cell a = s.cell a := rfl
@[simp] theorem State.cell_setRb (s : State) (v : Word) (a : Nat) : (s.setRb v).cell a = s.cell a := rfl
@[simp] theorem State.cell_setQueue (s : State) (q : List Word) (a : Nat) : (s.setQueue q).cell a = s.cell a := rfl
@[simp] theorem State.cell_setStatus (s : State) (v : Status) (a : Nat) : (s.setStatus v).cell a = s.cell a := rfl
@[simp] theorem State.cell_respond (s : State) (r : Response) (a : Nat) : (s.respond r).cell a = s.cell a := rfl
@[simp] theorem State.cell_raise (s : State) (f : FaultInfo) (a : Nat) : (s.raise f).cell a = s.cell a := rfl

/-! ## The end of a step -/

@[simp] theorem finish_error (s : State) (f : FaultInfo) : finish s (.error f) = .next (s.raise f) := rfl

@[simp] theorem finish_ok (s t : State) (e : StepEnd) : finish s (.ok (t, e)) = .next (t.conclude e) := rfl

/-- A step always ends in a next state: the fault taken in the state it began in, or the end it reached. -/
theorem finish_next {s t : State} {r : Except FaultInfo (State × StepEnd)} (h : finish s r = .next t) :
    (∃ f, r = .error f ∧ t = s.raise f) ∨ ∃ u e, r = .ok (u, e) ∧ t = u.conclude e := by
  rcases r with f | ⟨u, e⟩
  · exact .inl ⟨f, rfl, by simpa using h.symm⟩
  · exact .inr ⟨u, e, rfl, by simpa using h.symm⟩

end Sys2Proof.Machine
end

