-- ==== Sys2Proof/Laws/Operands.lean ====
section
/-! SUPPORT. What resolving a parameter can do (R68, R69): its value or target address, or one address fault. -/

namespace Sys2Proof.Machine

open Sys2Proof

variable {s : State} {k : Fin 4} {m : Mode}

/-- The fault of parameter `k` at address `a` (R154). -/
def addressFault (k : Fin 4) (a : Int) : FaultInfo := { code := .addressOutOfRange, param := k, value := a }

/-- A readable parameter resolves to its value. -/
theorem resolveRead_ok (h : s.readable k m) : resolveRead s k m = .ok (s.operand k m) := by
  obtain ⟨hp, he⟩ := h
  have cell : addrCheck s (s.paramAddr k : Nat) k = .ok (s.paramAddr k) := addrCheck_nat hp
  cases m with
  | immediate => simp [resolveRead, cell, State.operand]; rfl
  | position =>
    have addr := addrCheck_ok (p := k) (State.isAddr_iff.2 (he (by decide)))
    simp only [resolveRead, cell, addr]
    rfl
  | relative =>
    have addr := addrCheck_ok (p := k) (State.isAddr_iff.2 (he (by decide)))
    simp only [resolveRead, cell, addr]
    rfl

/-- A parameter whose cell does not exist faults with that cell's address. -/
theorem resolveRead_no_cell (h : ¬ s.hasParam k) : resolveRead s k m = .error (addressFault k (s.paramAddr k)) := by
  have no : s.isAddr (s.paramAddr k) = false := by
    rw [← Bool.not_eq_true, State.isAddr_iff]; unfold State.hasParam at h; omega
  simp only [resolveRead, addrCheck_error no]
  rfl

/-- A parameter whose effective address is no address faults with that address. -/
theorem resolveRead_bad_address (h : s.hasParam k) (hm : m ≠ .immediate)
    (he : ¬ (0 ≤ s.effectiveAddr k m ∧ s.effectiveAddr k m < s.params.memLimit)) :
    resolveRead s k m = .error (addressFault k (s.effectiveAddr k m)) := by
  have cell : addrCheck s (s.paramAddr k : Nat) k = .ok (s.paramAddr k) := addrCheck_nat h
  have no : s.isAddr (s.effectiveAddr k m) = false := by rwa [← Bool.not_eq_true, State.isAddr_iff]
  cases m with
  | immediate => exact absurd rfl hm
  | position => simp only [resolveRead, cell, addrCheck_error no]; rfl
  | relative => simp only [resolveRead, cell, addrCheck_error no]; rfl

/-- Everything resolving a read parameter can do. -/
theorem resolveRead_cases (s : State) (k : Fin 4) (m : Mode) :
    (s.readable k m ∧ resolveRead s k m = .ok (s.operand k m)) ∨
    (¬ s.hasParam k ∧ resolveRead s k m = .error (addressFault k (s.paramAddr k))) ∨
    (s.hasParam k ∧ m ≠ .immediate ∧ ¬ (0 ≤ s.effectiveAddr k m ∧ s.effectiveAddr k m < s.params.memLimit) ∧
      resolveRead s k m = .error (addressFault k (s.effectiveAddr k m))) := by
  by_cases hp : s.hasParam k
  · by_cases hr : m ≠ .immediate → 0 ≤ s.effectiveAddr k m ∧ s.effectiveAddr k m < s.params.memLimit
    · exact .inl ⟨⟨hp, hr⟩, resolveRead_ok ⟨hp, hr⟩⟩
    · obtain ⟨hm, he⟩ := Classical.not_imp.1 hr
      exact .inr (.inr ⟨hp, hm, he, resolveRead_bad_address hp hm he⟩)
  · exact .inr (.inl ⟨hp, resolveRead_no_cell hp⟩)

/-- A targetable parameter resolves to its target address. -/
theorem resolveWrite_ok (h : s.targetable k m) : resolveWrite s k m = .ok (s.target k m) := by
  obtain ⟨-, hp, he⟩ := h
  have cell : addrCheck s (s.paramAddr k : Nat) k = .ok (s.paramAddr k) := addrCheck_nat hp
  simp only [resolveWrite, cell, addrCheck_ok (State.isAddr_iff.2 he)]
  rfl

theorem resolveWrite_no_cell (h : ¬ s.hasParam k) : resolveWrite s k m = .error (addressFault k (s.paramAddr k)) := by
  have no : s.isAddr (s.paramAddr k) = false := by
    rw [← Bool.not_eq_true, State.isAddr_iff]; unfold State.hasParam at h; omega
  simp only [resolveWrite, addrCheck_error no]
  rfl

theorem resolveWrite_bad_address (h : s.hasParam k)
    (he : ¬ (0 ≤ s.effectiveAddr k m ∧ s.effectiveAddr k m < s.params.memLimit)) :
    resolveWrite s k m = .error (addressFault k (s.effectiveAddr k m)) := by
  have cell : addrCheck s (s.paramAddr k : Nat) k = .ok (s.paramAddr k) := addrCheck_nat h
  have no : s.isAddr (s.effectiveAddr k m) = false := by rwa [← Bool.not_eq_true, State.isAddr_iff]
  simp only [resolveWrite, cell, addrCheck_error no]
  rfl

/-- Everything resolving a write parameter in mode 0 or 2 can do. -/
theorem resolveWrite_cases (s : State) (k : Fin 4) (m : Mode) (hm : m ≠ .immediate) :
    (s.targetable k m ∧ resolveWrite s k m = .ok (s.target k m)) ∨
    (¬ s.hasParam k ∧ resolveWrite s k m = .error (addressFault k (s.paramAddr k))) ∨
    (s.hasParam k ∧ ¬ (0 ≤ s.effectiveAddr k m ∧ s.effectiveAddr k m < s.params.memLimit) ∧
      resolveWrite s k m = .error (addressFault k (s.effectiveAddr k m))) := by
  by_cases hp : s.hasParam k
  · by_cases he : 0 ≤ s.effectiveAddr k m ∧ s.effectiveAddr k m < s.params.memLimit
    · exact .inl ⟨⟨hm, hp, he⟩, resolveWrite_ok ⟨hm, hp, he⟩⟩
    · exact .inr (.inr ⟨hp, he, resolveWrite_bad_address hp he⟩)
  · exact .inr (.inl ⟨hp, resolveWrite_no_cell hp⟩)

theorem checkWriteMode_ok (h : m ≠ .immediate) : checkWriteMode k m = .ok () := by
  cases m <;> first | rfl | exact absurd rfl h

theorem checkWriteMode_immediate :
    checkWriteMode k .immediate = .error { code := .illegalAddressingMode, param := k, value := 1 } := rfl

/-- The target of a targetable parameter is an address. -/
theorem State.target_lt (h : s.targetable k m) : s.target k m < s.params.memLimit := by
  obtain ⟨-, -, lo, hi⟩ := h
  unfold State.target
  omega

end Sys2Proof.Machine
end

