-- ==== Sys2Proof/Laws/Exec.lean ====
section
/-! SUPPORT. What executing an instruction can do: take one proper fault in the state it began in, or commit its
effect. Every invariant of the machine rests on `exec_cases`. -/

namespace Sys2Proof.Machine

open Sys2Proof

/-- A fault an instruction of `s` can raise: it has a code, and its value is within `WORD_BITS + 1` bits unless it is
the address of a parameter cell. -/
def FaultInfo.proper (f : FaultInfo) (s : State) : Prop :=
  f.code ≠ .none ∧ -18446744073709551616 ≤ f.value ∧ (f.value < 18446744073709551616 ∨ f.value ≤ s.pc + 3)

theorem effectiveAddr_bounds (s : State) (k : Fin 4) (m : Mode) :
    -18446744073709551616 ≤ s.effectiveAddr k m ∧
      (s.effectiveAddr k m < 18446744073709551616 ∨ s.effectiveAddr k m ≤ s.pc + 3) := by
  have lo := BitVec.le_toInt (s.paramWord k)
  have hi := BitVec.toInt_lt (x := s.paramWord k)
  have lo' := BitVec.le_toInt s.rb
  have hi' := BitVec.toInt_lt (x := s.rb)
  have hk := k.isLt
  cases m <;> simp only [State.effectiveAddr, State.paramAddr] <;> constructor <;> omega

theorem addressFault_effective_proper (s : State) (k : Fin 4) (m : Mode) :
    (addressFault k (s.effectiveAddr k m)).proper s :=
  ⟨by simp [addressFault], effectiveAddr_bounds s k m⟩

theorem addressFault_cell_proper (s : State) (k : Fin 4) : (addressFault k (s.paramAddr k)).proper s :=
  addressFault_effective_proper s k .immediate

theorem word_fault_proper (s : State) (c : FaultCode) (k : Fin 4) (v : Word) (h : c ≠ .none) :
    ({ code := c, param := k, value := v.toInt } : FaultInfo).proper s := by
  have lo := BitVec.le_toInt v
  have hi := BitVec.toInt_lt (x := v)
  exact ⟨h, by simp only; omega, .inl (by simp only; omega)⟩

theorem zero_fault_proper (s : State) (c : FaultCode) (k : Fin 4) (h : c ≠ .none) :
    ({ code := c, param := k, value := 0 } : FaultInfo).proper s :=
  word_fault_proper s c k 0 h

theorem mode_fault_proper (s : State) (k : Fin 4) :
    ({ code := .illegalAddressingMode, param := k, value := 1 } : FaultInfo).proper s :=
  word_fault_proper s _ k 1 (by decide)

/-- A resolved read parameter is its operand; an unresolved one raises a proper fault. -/
theorem resolveRead_split (s : State) (k : Fin 4) (m : Mode) :
    (s.readable k m ∧ resolveRead s k m = .ok (s.operand k m)) ∨ ∃ f, f.proper s ∧ resolveRead s k m = .error f := by
  rcases resolveRead_cases s k m with h | ⟨-, h⟩ | ⟨-, -, -, h⟩
  · exact .inl h
  · exact .inr ⟨_, addressFault_cell_proper s k, h⟩
  · exact .inr ⟨_, addressFault_effective_proper s k m, h⟩

theorem resolveWrite_split (s : State) (k : Fin 4) (m : Mode) (hm : m ≠ .immediate) :
    (s.targetable k m ∧ resolveWrite s k m = .ok (s.target k m)) ∨
      ∃ f, f.proper s ∧ resolveWrite s k m = .error f := by
  rcases resolveWrite_cases s k m hm with h | ⟨-, h⟩ | ⟨-, -, h⟩
  · exact .inl h
  · exact .inr ⟨_, addressFault_cell_proper s k, h⟩
  · exact .inr ⟨_, addressFault_effective_proper s k m, h⟩

/-- The mode check and resolution of a write parameter in one. -/
theorem writeParam_split (s : State) (k : Fin 4) (m : Mode) :
    (s.targetable k m ∧ checkWriteMode k m = .ok () ∧ resolveWrite s k m = .ok (s.target k m)) ∨
    (checkWriteMode k m = .ok () ∧ ∃ f, f.proper s ∧ resolveWrite s k m = .error f) ∨
      ∃ f, f.proper s ∧ checkWriteMode k m = .error f := by
  by_cases hm : m = .immediate
  · subst hm; exact .inr (.inr ⟨_, mode_fault_proper s k, checkWriteMode_immediate⟩)
  · rcases resolveWrite_split s k m hm with ⟨ht, h⟩ | h
    · exact .inl ⟨ht, checkWriteMode_ok hm, h⟩
    · exact .inr (.inl ⟨checkWriteMode_ok hm, h⟩)

/-! ## The shapes -/

theorem threeOperand_ok {s : State} {a b dst : Mode} {alu : Word → Word → Except FaultInfo Word} {r : Word}
    (ha : s.readable 1 a) (hb : s.readable 2 b) (hd : s.targetable 3 dst)
    (hr : alu (s.operand 1 a) (s.operand 2 b) = .ok r) :
    threeOperand s a b dst alu = .next ((s.setCell (s.target 3 dst) r).setPc (s.pc + 4)) := by
  simp only [threeOperand, checkWriteMode_ok hd.1, resolveRead_ok ha, resolveRead_ok hb, resolveWrite_ok hd,
    bind, Except.bind, hr]
  rfl

theorem threeOperand_alu_error {s : State} {a b dst : Mode} {alu : Word → Word → Except FaultInfo Word}
    {f : FaultInfo} (ha : s.readable 1 a) (hb : s.readable 2 b) (hd : s.targetable 3 dst)
    (hr : alu (s.operand 1 a) (s.operand 2 b) = .error f) :
    threeOperand s a b dst alu = .next (s.raise f) := by
  simp only [threeOperand, checkWriteMode_ok hd.1, resolveRead_ok ha, resolveRead_ok hb, resolveWrite_ok hd,
    bind, Except.bind, hr]
  rfl

/-- Everything a three-operand instruction can do. -/
theorem threeOperand_cases {s t : State} {a b dst : Mode} {alu : Word → Word → Except FaultInfo Word}
    (h : threeOperand s a b dst alu = .next t) :
    (∃ f, f.proper s ∧ t = s.raise f) ∨
    (s.readable 1 a ∧ s.readable 2 b ∧ s.targetable 3 dst ∧
      ((∃ f, alu (s.operand 1 a) (s.operand 2 b) = .error f ∧ t = s.raise f) ∨
       ∃ r, alu (s.operand 1 a) (s.operand 2 b) = .ok r ∧
         t = (s.setCell (s.target 3 dst) r).setPc (s.pc + 4))) := by
  rcases writeParam_split s 3 dst with ⟨hd, hc, hw⟩ | ⟨hc, f, hf, hw⟩ | ⟨f, hf, hc⟩
  · rcases resolveRead_split s 1 a with ⟨ha, ea⟩ | ⟨f, hf, ea⟩
    · rcases resolveRead_split s 2 b with ⟨hb, eb⟩ | ⟨f, hf, eb⟩
      · refine .inr ⟨ha, hb, hd, ?_⟩
        cases hr : alu (s.operand 1 a) (s.operand 2 b) with
        | error f => rw [threeOperand_alu_error ha hb hd hr] at h; exact .inl ⟨f, rfl, by simpa using h.symm⟩
        | ok r => rw [threeOperand_ok ha hb hd hr] at h; exact .inr ⟨r, rfl, by simpa using h.symm⟩
      · exact .inl ⟨f, hf, by simpa [threeOperand, hc, ea, eb, bind, Except.bind] using h.symm⟩
    · exact .inl ⟨f, hf, by simpa [threeOperand, hc, ea, bind, Except.bind] using h.symm⟩
  · rcases resolveRead_split s 1 a with ⟨ha, ea⟩ | ⟨g, hg, ea⟩
    · rcases resolveRead_split s 2 b with ⟨hb, eb⟩ | ⟨g, hg, eb⟩
      · exact .inl ⟨f, hf, by simpa [threeOperand, hc, ea, eb, hw, bind, Except.bind] using h.symm⟩
      · exact .inl ⟨g, hg, by simpa [threeOperand, hc, ea, eb, bind, Except.bind] using h.symm⟩
    · exact .inl ⟨g, hg, by simpa [threeOperand, hc, ea, bind, Except.bind] using h.symm⟩
  · exact .inl ⟨f, hf, by simpa [threeOperand, hc, bind, Except.bind] using h.symm⟩

theorem jumpWhen_not_taken {s : State} {a b : Mode} {condition : Word → Bool} (ha : s.readable 1 a)
    (hb : s.readable 2 b) (hc : condition (s.operand 1 a) = false) :
    jumpWhen s a b condition = .next (s.setPc (s.pc + 3)) := by
  simp only [jumpWhen, resolveRead_ok ha, resolveRead_ok hb, bind, Except.bind, hc]
  rfl

theorem jumpWhen_taken {s : State} {a b : Mode} {condition : Word → Bool} (ha : s.readable 1 a)
    (hb : s.readable 2 b) (hc : condition (s.operand 1 a) = true) (ht : s.isAddr (s.operand 2 b).toInt = true) :
    jumpWhen s a b condition = .next (s.setPc (s.operand 2 b).toInt.toNat) := by
  simp only [jumpWhen, resolveRead_ok ha, resolveRead_ok hb, bind, Except.bind, hc, addrCheck_ok ht]
  rfl

theorem jumpWhen_bad_target {s : State} {a b : Mode} {condition : Word → Bool} (ha : s.readable 1 a)
    (hb : s.readable 2 b) (hc : condition (s.operand 1 a) = true) (ht : s.isAddr (s.operand 2 b).toInt = false) :
    jumpWhen s a b condition = .next (s.raise (addressFault 2 (s.operand 2 b).toInt)) := by
  simp only [jumpWhen, resolveRead_ok ha, resolveRead_ok hb, bind, Except.bind, hc, addrCheck_error ht]
  rfl

/-- Everything a conditional jump can do. -/
theorem jumpWhen_cases {s t : State} {a b : Mode} {condition : Word → Bool}
    (h : jumpWhen s a b condition = .next t) :
    (∃ f, f.proper s ∧ t = s.raise f) ∨
    (s.readable 1 a ∧ s.readable 2 b ∧
      ((condition (s.operand 1 a) = false ∧ t = s.setPc (s.pc + 3)) ∨
       (condition (s.operand 1 a) = true ∧ s.isAddr (s.operand 2 b).toInt = true ∧
         t = s.setPc (s.operand 2 b).toInt.toNat))) := by
  rcases resolveRead_split s 1 a with ⟨ha, ea⟩ | ⟨f, hf, ea⟩
  · rcases resolveRead_split s 2 b with ⟨hb, eb⟩ | ⟨f, hf, eb⟩
    · cases hc : condition (s.operand 1 a) with
      | false =>
        rw [jumpWhen_not_taken ha hb hc] at h
        exact .inr ⟨ha, hb, .inl ⟨rfl, by simpa using h.symm⟩⟩
      | true =>
        cases ht : s.isAddr (s.operand 2 b).toInt with
        | false =>
          rw [jumpWhen_bad_target ha hb hc ht] at h
          exact .inl ⟨_, word_fault_proper s .addressOutOfRange 2 _ (by decide), by simpa [addressFault] using h.symm⟩
        | true =>
          rw [jumpWhen_taken ha hb hc ht] at h
          exact .inr ⟨ha, hb, .inr ⟨rfl, rfl, by simpa using h.symm⟩⟩
    · exact .inl ⟨f, hf, by simpa [jumpWhen, ea, eb, bind, Except.bind] using h.symm⟩
  · exact .inl ⟨f, hf, by simpa [jumpWhen, ea, bind, Except.bind] using h.symm⟩

theorem execIn_front {s : State} {dst : Mode} {v : Word} {rest : List Word} (hd : s.targetable 1 dst)
    (hq : s.queue = v :: rest) :
    execIn dst s = .next (((s.setQueue rest).setCell (s.target 1 dst) v).setPc (s.pc + 2)) := by
  simp only [execIn, checkWriteMode_ok hd.1, resolveWrite_ok hd, bind, Except.bind, takeInput, hq]
  rfl

theorem execIn_fatal {s : State} {dst : Mode} (hd : s.targetable 1 dst) (hq : s.queue = [])
    (hp : s.policy = .fatal) :
    execIn dst s = .next (s.raise { code := .inputUnderflow, param := 1, value := 0 }) := by
  simp only [execIn, checkWriteMode_ok hd.1, resolveWrite_ok hd, bind, Except.bind, takeInput, hq, hp]
  rfl

theorem execIn_defaultZero {s : State} {dst : Mode} (hd : s.targetable 1 dst) (hq : s.queue = [])
    (hp : s.policy = .defaultZero) :
    execIn dst s = .next ((s.setCell (s.target 1 dst) 0).setPc (s.pc + 2)) := by
  simp only [execIn, checkWriteMode_ok hd.1, resolveWrite_ok hd, bind, Except.bind, takeInput, hq, hp]
  simp [State.setQueue, State.setCell, State.setPc, hq]

theorem execIn_block {s : State} {dst : Mode} (hd : s.targetable 1 dst) (hq : s.queue = [])
    (hp : s.policy = .block) :
    execIn dst s = .next (s.conclude .needInput) := by
  simp only [execIn, checkWriteMode_ok hd.1, resolveWrite_ok hd, bind, Except.bind, takeInput, hq, hp]
  rfl

theorem execOut_ok {s : State} {a : Mode} (ha : s.readable 1 a) :
    execOut a s = .next ((s.setPc (s.pc + 2)).conclude (.output (s.operand 1 a))) := by
  simp only [execOut, resolveRead_ok ha, bind, Except.bind]
  rfl

theorem execArb_ok {s : State} {a : Mode} (ha : s.readable 1 a)
    (hf : fits (s.rb.toInt + (s.operand 1 a).toInt) = true) :
    execArb a s = .next ((s.setRb (toWord (s.rb.toInt + (s.operand 1 a).toInt))).setPc (s.pc + 2)) := by
  simp only [execArb, resolveRead_ok ha, bind, Except.bind, aluAdjust, narrow_ok hf]
  rfl

theorem execArb_overflow {s : State} {a : Mode} (ha : s.readable 1 a)
    (hf : fits (s.rb.toInt + (s.operand 1 a).toInt) = false) :
    execArb a s = .next (s.raise { code := .arithmeticOverflow, param := 1, value := 0 }) := by
  simp only [execArb, resolveRead_ok ha, bind, Except.bind, aluAdjust, narrow_error hf]
  rfl

/-! ## Every instruction -/

/-- The effect an instruction commits when it raises no fault (R100 to R141): what must hold of `s`, and the state
`t` it leaves. -/
def Commits (s t : State) : Instr → Prop
  | .add a b dst => s.readable 1 a ∧ s.readable 2 b ∧ s.targetable 3 dst ∧
      fits ((s.operand 1 a).toInt + (s.operand 2 b).toInt) = true ∧
      t = (s.setCell (s.target 3 dst) (toWord ((s.operand 1 a).toInt + (s.operand 2 b).toInt))).setPc (s.pc + 4)
  | .mul a b dst => s.readable 1 a ∧ s.readable 2 b ∧ s.targetable 3 dst ∧
      fits ((s.operand 1 a).toInt * (s.operand 2 b).toInt) = true ∧
      t = (s.setCell (s.target 3 dst) (toWord ((s.operand 1 a).toInt * (s.operand 2 b).toInt))).setPc (s.pc + 4)
  | .lt a b dst => s.readable 1 a ∧ s.readable 2 b ∧ s.targetable 3 dst ∧
      t = (s.setCell (s.target 3 dst) (aluLess (s.operand 1 a) (s.operand 2 b))).setPc (s.pc + 4)
  | .eq a b dst => s.readable 1 a ∧ s.readable 2 b ∧ s.targetable 3 dst ∧
      t = (s.setCell (s.target 3 dst) (aluEqual (s.operand 1 a) (s.operand 2 b))).setPc (s.pc + 4)
  | .inp dst => s.targetable 1 dst ∧
      ((∃ v rest, s.queue = v :: rest ∧ t = ((s.setQueue rest).setCell (s.target 1 dst) v).setPc (s.pc + 2)) ∨
       (s.queue = [] ∧ s.policy = .defaultZero ∧ t = (s.setCell (s.target 1 dst) 0).setPc (s.pc + 2)) ∨
       (s.queue = [] ∧ s.policy = .block ∧ t = s.conclude .needInput))
  | .out a => s.readable 1 a ∧ t = (s.setPc (s.pc + 2)).conclude (.output (s.operand 1 a))
  | .jt a b => s.readable 1 a ∧ s.readable 2 b ∧
      ((s.operand 1 a = 0 ∧ t = s.setPc (s.pc + 3)) ∨
       (s.operand 1 a ≠ 0 ∧ s.isAddr (s.operand 2 b).toInt = true ∧ t = s.setPc (s.operand 2 b).toInt.toNat))
  | .jf a b => s.readable 1 a ∧ s.readable 2 b ∧
      ((s.operand 1 a ≠ 0 ∧ t = s.setPc (s.pc + 3)) ∨
       (s.operand 1 a = 0 ∧ s.isAddr (s.operand 2 b).toInt = true ∧ t = s.setPc (s.operand 2 b).toInt.toNat))
  | .arb a => s.readable 1 a ∧ fits (s.rb.toInt + (s.operand 1 a).toInt) = true ∧
      t = (s.setRb (toWord (s.rb.toInt + (s.operand 1 a).toInt))).setPc (s.pc + 2)
  | .hlt => t = s.conclude .halted

theorem narrow_cases {s : State} {v : Int} {p : Fin 4} :
    (fits v = true ∧ narrow v p = .ok (toWord v)) ∨ ∃ f : FaultInfo, f.proper s ∧ narrow v p = .error f := by
  cases h : fits v with
  | true => exact .inl ⟨rfl, narrow_ok h⟩
  | false => exact .inr ⟨_, zero_fault_proper s _ p (by decide), narrow_error h⟩

/-- Everything executing an instruction can do: one proper fault, or its own effect. -/
theorem exec_cases {i : Instr} {s t : State} (h : exec i s = .next t) :
    (∃ f, f.proper s ∧ t = s.raise f) ∨ Commits s t i := by
  cases i with
  | add a b dst =>
    rcases threeOperand_cases (show threeOperand s a b dst aluAdd = .next t from h) with
      hf | ⟨ha, hb, hd, ⟨f, hr, ht⟩ | ⟨r, hr, ht⟩⟩
    · exact .inl hf
    · rcases narrow_cases (s := s) (v := (s.operand 1 a).toInt + (s.operand 2 b).toInt) (p := 0) with ⟨-, hn⟩ | ⟨g, hg, hn⟩
      · rw [aluAdd, hn] at hr; cases hr
      · rw [aluAdd, hn] at hr; cases hr; exact .inl ⟨_, hg, ht⟩
    · rcases narrow_cases (s := s) (v := (s.operand 1 a).toInt + (s.operand 2 b).toInt) (p := 0) with ⟨hw, hn⟩ | ⟨g, -, hn⟩
      · rw [aluAdd, hn] at hr; cases hr; exact .inr ⟨ha, hb, hd, hw, ht⟩
      · rw [aluAdd, hn] at hr; cases hr
  | mul a b dst =>
    rcases threeOperand_cases (show threeOperand s a b dst aluMul = .next t from h) with
      hf | ⟨ha, hb, hd, ⟨f, hr, ht⟩ | ⟨r, hr, ht⟩⟩
    · exact .inl hf
    · rcases narrow_cases (s := s) (v := (s.operand 1 a).toInt * (s.operand 2 b).toInt) (p := 0) with ⟨-, hn⟩ | ⟨g, hg, hn⟩
      · rw [aluMul, hn] at hr; cases hr
      · rw [aluMul, hn] at hr; cases hr; exact .inl ⟨_, hg, ht⟩
    · rcases narrow_cases (s := s) (v := (s.operand 1 a).toInt * (s.operand 2 b).toInt) (p := 0) with ⟨hw, hn⟩ | ⟨g, -, hn⟩
      · rw [aluMul, hn] at hr; cases hr; exact .inr ⟨ha, hb, hd, hw, ht⟩
      · rw [aluMul, hn] at hr; cases hr
  | lt a b dst =>
    rcases threeOperand_cases (show threeOperand s a b dst (fun x y => .ok (aluLess x y)) = .next t from h) with
      hf | ⟨ha, hb, hd, ⟨f, hr, -⟩ | ⟨r, hr, ht⟩⟩
    · exact .inl hf
    · cases hr
    · cases hr; exact .inr ⟨ha, hb, hd, ht⟩
  | eq a b dst =>
    rcases threeOperand_cases (show threeOperand s a b dst (fun x y => .ok (aluEqual x y)) = .next t from h) with
      hf | ⟨ha, hb, hd, ⟨f, hr, -⟩ | ⟨r, hr, ht⟩⟩
    · exact .inl hf
    · cases hr
    · cases hr; exact .inr ⟨ha, hb, hd, ht⟩
  | inp dst =>
    replace h : execIn dst s = .next t := h
    rcases writeParam_split s 1 dst with ⟨hd, -, -⟩ | ⟨hc, f, hf, hw⟩ | ⟨f, hf, hc⟩
    · cases hq : s.queue with
      | cons v rest => rw [execIn_front hd hq] at h; exact .inr ⟨hd, .inl ⟨v, rest, hq, by simpa using h.symm⟩⟩
      | nil =>
        cases hp : s.policy with
        | fatal =>
          rw [execIn_fatal hd hq hp] at h
          exact .inl ⟨_, zero_fault_proper s .inputUnderflow 1 (by decide), by simpa using h.symm⟩
        | defaultZero => rw [execIn_defaultZero hd hq hp] at h; exact .inr ⟨hd, .inr (.inl ⟨hq, hp, by simpa using h.symm⟩)⟩
        | block => rw [execIn_block hd hq hp] at h; exact .inr ⟨hd, .inr (.inr ⟨hq, hp, by simpa using h.symm⟩)⟩
    · exact .inl ⟨f, hf, by simpa [execIn, hc, hw, bind, Except.bind] using h.symm⟩
    · exact .inl ⟨f, hf, by simpa [execIn, hc, bind, Except.bind] using h.symm⟩
  | out a =>
    replace h : execOut a s = .next t := h
    rcases resolveRead_split s 1 a with ⟨ha, -⟩ | ⟨f, hf, ea⟩
    · rw [execOut_ok ha] at h; exact .inr ⟨ha, by simpa using h.symm⟩
    · exact .inl ⟨f, hf, by simpa [execOut, ea, bind, Except.bind] using h.symm⟩
  | jt a b =>
    rcases jumpWhen_cases (show jumpWhen s a b aluTrue = .next t from h) with
      hf | ⟨ha, hb, ⟨hc, ht⟩ | ⟨hc, haddr, ht⟩⟩
    · exact .inl hf
    · exact .inr ⟨ha, hb, .inl ⟨by simpa [aluTrue] using hc, ht⟩⟩
    · exact .inr ⟨ha, hb, .inr ⟨by simpa [aluTrue] using hc, haddr, ht⟩⟩
  | jf a b =>
    rcases jumpWhen_cases (show jumpWhen s a b aluFalse = .next t from h) with
      hf | ⟨ha, hb, ⟨hc, ht⟩ | ⟨hc, haddr, ht⟩⟩
    · exact .inl hf
    · exact .inr ⟨ha, hb, .inl ⟨by simpa [aluFalse] using hc, ht⟩⟩
    · exact .inr ⟨ha, hb, .inr ⟨by simpa [aluFalse] using hc, haddr, ht⟩⟩
  | arb a =>
    replace h : execArb a s = .next t := h
    rcases resolveRead_split s 1 a with ⟨ha, -⟩ | ⟨f, hf, ea⟩
    · cases hn : fits (s.rb.toInt + (s.operand 1 a).toInt) with
      | true => rw [execArb_ok ha hn] at h; exact .inr ⟨ha, hn, by simpa using h.symm⟩
      | false =>
        rw [execArb_overflow ha hn] at h
        exact .inl ⟨_, zero_fault_proper s .arithmeticOverflow 1 (by decide), by simpa using h.symm⟩
    · exact .inl ⟨f, hf, by simpa [execArb, ea, bind, Except.bind] using h.symm⟩
  | hlt => exact .inr (by simpa [exec, execHlt, Commits] using h.symm)

end Sys2Proof.Machine
end

