-- ==== Sys2Proof/Laws/Step.lean ====
section
/-! SUPPORT. What a step can do: fetch, decode and execute an instruction, take the fetch's or the decoder's fault, or
carry out a host command. -/

namespace Sys2Proof.Machine

open Sys2Proof

/-! ## Fetch and decode -/

theorem fetch_no_cell {s : State} (h : ¬ s.pc < s.params.memLimit) : fetch s = .error (addressFault 0 s.pc) := by
  have no : s.isAddr s.pc = false := by rw [← Bool.not_eq_true, State.isAddr_iff]; omega
  simp only [fetch, addrCheck_error no]
  rfl

theorem fetch_decoded {s : State} {i : Instr} (h : s.pc < s.params.memLimit) (hd : decode (s.cell s.pc) = .ok i) :
    fetch s = .ok i := by
  simp only [fetch, addrCheck_nat h, bind, Except.bind, hd]

theorem fetch_rejected {s : State} {e : DecodeError} (h : s.pc < s.params.memLimit)
    (hd : decode (s.cell s.pc) = .error e) : fetch s = .error (faultOfDecode e) := by
  simp only [fetch, addrCheck_nat h, bind, Except.bind, hd]

/-- Everything the fetch can do. -/
theorem fetch_cases (s : State) :
    (¬ s.pc < s.params.memLimit ∧ fetch s = .error (addressFault 0 s.pc)) ∨
    (s.pc < s.params.memLimit ∧ ∃ e, decode (s.cell s.pc) = .error e ∧ fetch s = .error (faultOfDecode e)) ∨
    (s.pc < s.params.memLimit ∧ ∃ i, decode (s.cell s.pc) = .ok i ∧ fetch s = .ok i) := by
  by_cases h : s.pc < s.params.memLimit
  · cases hd : decode (s.cell s.pc) with
    | error e => exact .inr (.inl ⟨h, e, rfl, fetch_rejected h hd⟩)
    | ok i => exact .inr (.inr ⟨h, i, rfl, fetch_decoded h hd⟩)
  · exact .inl ⟨h, fetch_no_cell h⟩

/-- The fault of a rejected word is proper. -/
theorem faultOfDecode_proper (s : State) {e : DecodeError} (h : e.small) : (faultOfDecode e).proper s := by
  cases e with
  | illegalOpcode v =>
    simp only [DecodeError.small] at h
    exact ⟨by simp [faultOfDecode], by simp only [faultOfDecode]; omega, .inl (by simp only [faultOfDecode]; omega)⟩
  | illegalMode k v =>
    simp only [DecodeError.small] at h
    exact ⟨by simp [faultOfDecode], by simp only [faultOfDecode]; omega, .inl (by simp only [faultOfDecode]; omega)⟩

/-- Executing an instruction always answers a next state. -/
theorem exec_total (i : Instr) (s : State) : ∃ t, exec i s = .next t := by
  have total : ∀ r, ∃ t, finish s r = .next t := by
    rintro (f | ⟨u, e⟩)
    · exact ⟨_, rfl⟩
    · exact ⟨_, rfl⟩
  cases i <;> first | exact total _ | exact ⟨_, rfl⟩

/-- Everything a step of the engine can do. -/
theorem engineStep_cases {s t : State} (h : engineStep s = .next t) :
    (∃ f, f.proper s ∧ t = s.raise f) ∨
    (s.pc < s.params.memLimit ∧ ∃ i, decode (s.cell s.pc) = .ok i ∧ Commits s t i) := by
  unfold engineStep at h
  rcases fetch_cases s with ⟨-, hf⟩ | ⟨-, e, hd, hf⟩ | ⟨hp, i, hd, hf⟩
  · rw [hf] at h
    exact .inl ⟨_, addressFault_cell_proper s 0, by simpa [State.paramAddr] using h.symm⟩
  · rw [hf] at h
    exact .inl ⟨_, faultOfDecode_proper s (decode_small hd), by simpa using h.symm⟩
  · rw [hf] at h
    rcases exec_cases h with hx | hx
    · exact .inl hx
    · exact .inr ⟨hp, i, hd, hx⟩

theorem step_running {s : State} (h : s.status = .running) : step s = engineStep s := by simp [step, h]

theorem step_idle {s : State} (h : s.status ≠ .running) : step s = .next (idleStep s) := by
  unfold step
  cases hs : s.status <;> first | rfl | exact absurd hs h

/-- With a command to issue, a machine that is not running carries it out. -/
theorem step_command {s : State} {c : Command} {rest : List Command} (h : s.status ≠ .running)
    (hc : s.commands = c :: rest) : step s = .next (hostCommand c { s with commands := rest }) := by
  rw [step_idle h, idleStep, hc]

/-- With no command to issue, a machine that is not running holds its state. -/
theorem step_hold {s : State} (h : s.status ≠ .running) (hc : s.commands = []) : step s = .next s := by
  rw [step_idle h, idleStep, hc]

/-! ## Host commands -/

theorem hostLoad_rejected {s : State} {p : List Int} {c : BitVec 2} (h : loadable s p c = none) :
    hostLoad s p c = s.reject .badProgram := by
  simp [hostLoad, h]

/-- When LOAD is accepted (R181). -/
theorem loadable_eq_some {s : State} {p : List Int} {c : BitVec 2} {q : Policy} :
    loadable s p c = some q ↔
      (∀ v ∈ p, fits v = true) ∧ p.length ≤ s.params.memLimit ∧ Policy.ofCode c = some q := by
  unfold loadable
  split
  · next h => simp only [Bool.and_eq_true, List.all_eq_true, decide_eq_true_eq] at h; tauto
  · next h => simp only [Bool.and_eq_true, List.all_eq_true, decide_eq_true_eq] at h; simp only [reduceCtorEq, false_iff]; tauto

theorem hostPushInput_room {s : State} {v : Word} (h : s.queueHasRoom = true) :
    hostPushInput s v = (s.setQueue (s.queue ++ [v])).respond .ok := by simp [hostPushInput, h]

theorem hostPushInput_full {s : State} {v : Word} (h : s.queueHasRoom = false) :
    hostPushInput s v = s.reject .queueFull := by simp [hostPushInput, h]

theorem hostPatch_ok {s : State} {a : Int} {v : Word} (h : s.isAddr a = true) :
    hostPatch s a v = (s.setCell a.toNat v).respond .ok := by simp [hostPatch, h]

theorem hostPatch_rejected {s : State} {a : Int} {v : Word} (h : s.isAddr a = false) :
    hostPatch s a v = s.reject .badAddress := by simp [hostPatch, h]

/-- Everything a host command can do. -/
theorem hostCommand_cases (c : Command) (s : State) :
    (∃ p b q, c = .load p b ∧ loadable s p b = some q ∧ hostCommand c s = State.respond
      { params := s.params, mem := Memory.image (p.map toWord), pc := 0, rb := 0, queue := [], status := .ready,
        fault := FaultRecord.clear, policy := q, commands := s.commands, responses := s.responses } .ok) ∨
    (∃ v, c = .pushInput v ∧ s.queueHasRoom = true ∧
      hostCommand c s = (s.setQueue (s.queue ++ [v])).respond .ok) ∨
    (∃ a v, c = .patch a v ∧ s.isAddr a = true ∧ hostCommand c s = (s.setCell a.toNat v).respond .ok) ∨
    (c = .advance ∧ s.status = .ready ∧ hostCommand c s = s.setStatus .running) ∨
    (c = .advance ∧ s.status = .running ∧ hostCommand c s = s) ∨
    ∃ r, hostCommand c s = s.respond r := by
  cases c with
  | load p b =>
    cases h : loadable s p b with
    | none => exact .inr (.inr (.inr (.inr (.inr ⟨_, hostLoad_rejected h⟩))))
    | some q => exact .inl ⟨p, b, q, rfl, h, by simp [hostCommand, hostLoad, h]⟩
  | pushInput v =>
    cases h : s.queueHasRoom with
    | false => exact .inr (.inr (.inr (.inr (.inr ⟨_, hostPushInput_full h⟩))))
    | true => exact .inr (.inl ⟨v, rfl, rfl, hostPushInput_room h⟩)
  | patch a v =>
    cases h : s.isAddr a with
    | false => exact .inr (.inr (.inr (.inr (.inr ⟨_, hostPatch_rejected h⟩))))
    | true => exact .inr (.inr (.inl ⟨a, v, rfl, h, hostPatch_ok h⟩))
  | advance =>
    cases h : s.status with
    | ready => exact .inr (.inr (.inr (.inl ⟨rfl, rfl, by simp [hostCommand, hostAdvance, h]⟩)))
    | running => exact .inr (.inr (.inr (.inr (.inl ⟨rfl, rfl, by simp [hostCommand, hostAdvance, h]⟩))))
    | halted => exact .inr (.inr (.inr (.inr (.inr ⟨.halted, by simp [hostCommand, hostAdvance, h]⟩))))
    | faulted => exact .inr (.inr (.inr (.inr (.inr ⟨.fault s.fault, by simp [hostCommand, hostAdvance, h]⟩))))
  | peek selector => exact .inr (.inr (.inr (.inr (.inr ⟨_, rfl⟩))))

/-- Everything the machine can do while it is not running. -/
theorem idleStep_cases (s : State) :
    (s.commands = [] ∧ idleStep s = s) ∨
    ∃ c rest, s.commands = c :: rest ∧ idleStep s = hostCommand c { s with commands := rest } := by
  cases h : s.commands with
  | nil => exact .inl ⟨rfl, by simp [idleStep, h]⟩
  | cons c rest => exact .inr ⟨c, rest, rfl, by simp [idleStep, h]⟩

end Sys2Proof.Machine
end

