-- ==== Sys2Proof/Laws/Instances.lean ====
section
/-! SUPPORT. What a step among several instances can do. -/

namespace Sys2Proof.Machine

open Sys2Proof

theorem othersIdle_iff {xs : List State} {k : Nat} :
    othersIdle xs k = true ↔ ∀ (j : Nat) (s : State), j ≠ k → xs[j]? = some s → s.status ≠ .running := by
  simp only [othersIdle, List.all_eq_true, decide_eq_true_eq, List.mem_eraseIdx_iff_getElem?]
  exact ⟨fun h j s hj hs => h s ⟨j, hj, hs⟩, fun h s ⟨j, hj, hs⟩ => h j s hj hs⟩

/-- With the others idle, instance `k` steps as it would alone. -/
theorem stepInstance_runs {xs : List State} {k : Nat} {s t : State} (hk : xs[k]? = some s)
    (hi : othersIdle xs k = true) (hs : step s = .next t) : stepInstance xs k = .next (xs.set k t) := by
  simp [stepInstance, hk, hi, hs]

/-- While another instance is inside an ADVANCE, instance `k` waits. -/
theorem stepInstance_waits {xs : List State} {k : Nat} (hi : othersIdle xs k = false) :
    stepInstance xs k = .next xs := by
  unfold stepInstance
  cases xs[k]? <;> simp [hi]

/-- Everything a step among several instances can do: instance `k` steps, the others idle, or nothing happens. -/
theorem stepInstance_cases {xs ys : List State} {k : Nat} (h : stepInstance xs k = .next ys) :
    (∃ s t, xs[k]? = some s ∧ othersIdle xs k = true ∧ step s = .next t ∧ ys = xs.set k t) ∨
    ((xs[k]? = none ∨ othersIdle xs k = false) ∧ ys = xs) := by
  cases hi : othersIdle xs k with
  | false => rw [stepInstance_waits hi] at h; exact .inr ⟨.inr rfl, by simpa using h.symm⟩
  | true =>
    cases hk : xs[k]? with
    | none => exact .inr ⟨.inl rfl, by simpa [stepInstance, hk] using h.symm⟩
    | some s =>
      cases hs : step s with
      | next t => rw [stepInstance_runs hk hi hs] at h; exact .inl ⟨s, t, rfl, rfl, hs, by simpa using h.symm⟩
      | fault r => cases r
      | refused r => simp [stepInstance, hk, hi, hs] at h

end Sys2Proof.Machine
end

