-- ==== Sys2Proof/Laws/PerInstr.lean ====
section
/-! SUPPORT. Facts about instructions as syntax, one lemma a constructor. -/

namespace Sys2Proof.Laws.CanonicalWord

open Sys2Proof

/-- The canonical word of an instruction (R74) carries `opcode + 100*m1 + 1000*m2 + 10000*m3` unchanged, has at most
five digits, and its two low digits are the opcode. -/
def Statement (i : Instr) : Prop :=
  (encode i).toInt = ((i.opcode + 100 * modeDigits i.modes : Nat) : Int) ∧
    i.opcode + 100 * modeDigits i.modes < 100000 ∧ (i.opcode + 100 * modeDigits i.modes) % 100 = i.opcode

theorem add (a b dst : Mode) : Statement (.add a b dst) := by unfold Statement; cases a <;> cases b <;> cases dst <;> decide
theorem mul (a b dst : Mode) : Statement (.mul a b dst) := by unfold Statement; cases a <;> cases b <;> cases dst <;> decide
theorem inp (dst : Mode) : Statement (.inp dst) := by unfold Statement; cases dst <;> decide
theorem out (a : Mode) : Statement (.out a) := by unfold Statement; cases a <;> decide
theorem jt (a b : Mode) : Statement (.jt a b) := by unfold Statement; cases a <;> cases b <;> decide
theorem jf (a b : Mode) : Statement (.jf a b) := by unfold Statement; cases a <;> cases b <;> decide
theorem lt (a b dst : Mode) : Statement (.lt a b dst) := by unfold Statement; cases a <;> cases b <;> cases dst <;> decide
theorem eq (a b dst : Mode) : Statement (.eq a b dst) := by unfold Statement; cases a <;> cases b <;> cases dst <;> decide
theorem arb (a : Mode) : Statement (.arb a) := by unfold Statement; cases a <;> decide
theorem hlt : Statement .hlt := by unfold Statement; decide

end Sys2Proof.Laws.CanonicalWord
end

