-- ==== Sys2Proof/Laws/Run.lean ====
section
/-! SUPPORT. Runs of the machine (`Host.Core.run`), one step at a time. -/

namespace Sys2Proof.Machine

open Sys2Proof

theorem run_zero (s : State) : Sys2Proof.core.run 0 s = .next s := rfl

/-- A run of one step more begins with that step. -/
theorem run_succ {s u : State} {n : Nat} (h : step s = .next u) :
    Sys2Proof.core.run (n + 1) s = Sys2Proof.core.run n u := by
  have hc : Sys2Proof.core.step s = .next u := h
  simp only [Host.Core.run, hc]

end Sys2Proof.Machine
end

