-- ==== Sys2Proof/Tests/Slice0.lean ====
section
/-! SUPPORT. Small tests with results from 95_test_vectors.md (the vector is named beside each) or worked out by hand from
the rules, and a witness for the hypotheses of every statement. -/

namespace Sys2Proof.Tests

open Sys2Proof Sys2Proof.Machine

/-- A running instance with `program` loaded. -/
def machine (program : List Word) : State := { State.reset with mem := Memory.image program, status := .running }

/-- The next state of a step, if it answers one. -/
def after (o : Host.Outcome State Fault Refusal) : Option State :=
  match o with
  | .next s => some s
  | .fault _ => none
  | .refused _ => none

/-- A field of the state after one step of `s`. -/
def observe {α : Type} (s : State) (field : State → α) : Option α := (after (step s)).map field

/-! ## Well-formedness: the one check refuses an immediate write parameter (R67) -/

theorem test_wellFormed_accepts_read_immediate : (Instr.add .immediate .immediate .relative).wellFormed = true := by decide
theorem test_wellFormed_refuses_add : (Instr.add .position .position .immediate).wellFormed = false := by decide
theorem test_wellFormed_refuses_mul : (Instr.mul .position .position .immediate).wellFormed = false := by decide
theorem test_wellFormed_refuses_inp : (Instr.inp .immediate).wellFormed = false := by decide
theorem test_wellFormed_refuses_lt : (Instr.lt .position .position .immediate).wellFormed = false := by decide
theorem test_wellFormed_refuses_eq : (Instr.eq .position .position .immediate).wellFormed = false := by decide

/-! ## Decoding: words written out digit by digit, `C B A` the modes of parameters 3, 2, 1, then the opcode (R62, R74) -/

/-- C = 2, B = 0, A = 1, opcode 01. -/
theorem test_decode_add : decode 20101 = .ok (.add .immediate .position .relative) := by decide
/-- The worked example of R74: 1002. -/
theorem test_decode_mul : decode 1002 = .ok (.mul .position .immediate .position) := by decide
theorem test_decode_inp : decode 203 = .ok (.inp .relative) := by decide
theorem test_decode_out : decode 104 = .ok (.out .immediate) := by decide
theorem test_decode_jt : decode 1205 = .ok (.jt .relative .immediate) := by decide
theorem test_decode_jf : decode 2106 = .ok (.jf .immediate .relative) := by decide
theorem test_decode_lt : decode 1207 = .ok (.lt .relative .immediate .position) := by decide
theorem test_decode_eq : decode 22108 = .ok (.eq .immediate .relative .relative) := by decide
theorem test_decode_arb : decode 209 = .ok (.arb .relative) := by decide
/-- V46: the digits a halt does not use are ignored. -/
theorem test_decode_hlt : decode 10099 = .ok .hlt := by decide
/-- V58, V57: digit 5, and digit 3 of an output, are ignored. -/
theorem test_decode_ignored_digits :
    decode 100001 = .ok (.add .position .position .position) ∧ decode 1104 = .ok (.out .immediate) := by decide
/-- V49, V50, V51, V55. -/
theorem test_decode_illegal_opcode :
    decode 0 = .error (.illegalOpcode 0) ∧ decode 98 = .error (.illegalOpcode 98) ∧
      decode (-99) = .error (.illegalOpcode (-99)) ∧ decode 300 = .error (.illegalOpcode 0) := by decide
/-- V53, V54, V56, V13, V18. -/
theorem test_decode_illegal_mode :
    decode 301 = .error (.illegalMode 1 3) ∧ decode 30001 = .error (.illegalMode 3 3) ∧
      decode 33301 = .error (.illegalMode 1 3) ∧ decode 11102 = .error (.illegalMode 3 1) ∧
      decode 103 = .error (.illegalMode 1 1) := by decide
theorem test_encode_add : encode (.add .relative .relative .relative) = 22201 := by decide
theorem test_decodeTableWord : decodeTableWord 16 1002 = some (.mul .position .immediate .position) := by decide

/-! ## Instructions -/

/-- V2. -/
theorem test_add_immediate :
    observe (machine [1101, -5, 3, 5, 99, 0]) (fun t => (t.cell 5, t.pc)) = some (-2, 4) := by decide
/-- V4: `WMAX + 1` faults and writes nothing. -/
theorem test_add_overflow :
    observe (machine [1101, 9223372036854775807, 1, 5, 99, 0]) (fun t => (t.cell 5, t.fault)) =
      some (0, { code := .arithmeticOverflow, pc := 0, word := 1101, param := 0, value := 0 }) := by decide
/-- V10: `(-2^32) * 2^31 = WMIN` fits. -/
theorem test_mul_least :
    observe (machine [1102, -4294967296, 2147483648, 5, 99, 0]) (fun t => t.cell 5) =
      some (-9223372036854775808) := by decide
/-- V11: `2^32 * 2^31` faults. -/
theorem test_mul_overflow :
    observe (machine [1102, 4294967296, 2147483648, 5, 99, 0]) (fun t => (t.fault.code, t.pc)) =
      some (.arithmeticOverflow, 0) := by decide
/-- V19: the queue's front goes to `M[rb + 2]`, here with `rb = 3`. -/
theorem test_inp_relative :
    observe { machine [203, 2, 99] with rb := 3, queue := [-8, 7] } (fun t => (t.cell 5, t.queue, t.pc)) =
      some (-8, [7], 2) := by decide
/-- V17: under `Block` an empty queue suspends and nothing moves. -/
theorem test_inp_block :
    observe { machine [3, 0, 4, 0, 99] with policy := .block } (fun t => (t.responses, t.status, t.pc, t.cell 0)) =
      some ([.needInput], .ready, 0, 3) := by decide
/-- V20. -/
theorem test_out_immediate :
    observe (machine [104, -9, 99]) (fun t => (t.responses, t.status, t.pc)) = some ([.output (-9)], .ready, 2) := by
  decide
/-- V22: a heap cell never written reads 0. -/
theorem test_out_heap : observe (machine [4, 100, 99]) (fun t => t.responses) = some [.output 0] := by decide
/-- V26: a negative operand is true. -/
theorem test_jt_negative : observe (machine [1105, -1, 4, 99, 99]) (fun t => t.pc) = some 4 := by decide
/-- V32: not taken, the second operand is resolved all the same. -/
theorem test_jt_unused_operand :
    observe (machine [5, 4, -1, 99, 0]) (fun t => t.fault) =
      some { code := .addressOutOfRange, pc := 0, word := 5, param := 2, value := -1 } := by decide
/-- V28. -/
theorem test_jf_not_taken : observe (machine [1106, 7, 4, 99, 99]) (fun t => t.pc) = some 3 := by decide
/-- R121 with a target that is no address: the fault leaves `pc`. -/
theorem test_jf_bad_target :
    observe (machine [1106, 0, -1]) (fun t => (t.fault.param, t.fault.value, t.pc)) = some (2, -1, 0) := by decide
/-- V37: the comparison is signed. -/
theorem test_lt_signed : observe (machine [1107, -1, 0, 5, 99, 9]) (fun t => t.cell 5) = some 1 := by decide
/-- V36. -/
theorem test_lt_equal : observe (machine [1107, 4, 4, 5, 99, -1]) (fun t => t.cell 5) = some 0 := by decide
/-- V41. -/
theorem test_eq_position : observe (machine [8, 5, 6, 7, 99, 3, 3, 9]) (fun t => t.cell 7) = some 1 := by decide
/-- V40. -/
theorem test_eq_differs :
    observe (machine [1108, 0, -9223372036854775808, 5, 99, -1]) (fun t => t.cell 5) = some 0 := by decide
/-- V43, its second instruction: the operand is read with the old `rb`. -/
theorem test_arb_relative :
    observe { machine [109, 5, 209, 0, 99, 7] with rb := 5, pc := 2 } (fun t => (t.rb, t.pc)) = some (12, 4) := by decide
/-- V44, its second instruction. -/
theorem test_arb_overflow :
    observe { machine [109, 0, 109, 1, 99] with rb := 9223372036854775807, pc := 2 } (fun t => (t.rb, t.fault)) =
      some (9223372036854775807, { code := .arithmeticOverflow, pc := 2, word := 109, param := 1, value := 0 }) := by
  decide
/-- W4, its first response. -/
theorem test_hlt : observe (machine [99]) (fun t => (t.status, t.responses, t.pc)) = some (.halted, [.halted], 0) := by
  decide

/-! ## Fetch, commands, reset -/

/-- V59, its second step: the fetch at `MEM_LIMIT`. -/
theorem test_fetch_at_limit :
    observe { machine [1101, 1, 1, 2] with params := { memLimit := 4, queueCapacity := none }, pc := 4 }
      (fun t => t.fault) =
      some { code := .addressOutOfRange, pc := 4, word := 0, param := 0, value := 4 } := by decide
/-- V60: a parameter cell that does not exist. -/
theorem test_missing_parameter_cell :
    observe { machine [1101, 1, 1] with params := { memLimit := 3, queueCapacity := none } } (fun t => t.fault) =
      some { code := .addressOutOfRange, pc := 0, word := 1101, param := 3, value := 3 } := by decide
/-- V64: a program with a value that is no word. -/
theorem test_load_rejected :
    observe { State.reset with commands := [.load [9223372036854775808] 0] } (fun t => (t.responses, t.mem)) =
      some ([.rejected .badProgram], []) := by decide
/-- LOAD of V19's program under `Block`: its fourth cell and the policy (R180). -/
theorem test_load :
    observe { State.reset with commands := [.load [109, 3, 203, 2, 99, 0] 2], pc := 9, status := .faulted }
      (fun t => (t.cell 3, t.policy, t.pc, t.status)) = some (2, .block, 0, .ready) := by decide
/-- V63. -/
theorem test_patch_rejected :
    observe { State.reset with commands := [.patch (-1) 5] } (fun t => (t.responses, t.mem)) =
      some ([.rejected .badAddress], []) := by decide
/-- V47, its last command: a halted instance does not fetch again. -/
theorem test_advance_halted :
    observe { machine [4] with status := .halted, commands := [.advance] } (fun t => (t.status, t.responses)) =
      some (.halted, [.halted]) := by decide
/-- A queue at its capacity (R93). -/
theorem test_push_full :
    observe { State.reset with params := { memLimit := 8, queueCapacity := some 1 }, queue := [1],
                               commands := [.pushInput 2] } (fun t => (t.queue, t.responses)) =
      some ([1], [.rejected .queueFull]) := by decide
/-- V66. -/
theorem test_peek_heap :
    observe { State.reset with commands := [.peek (.memory 500)] } (fun t => (t.responses, t.mem)) =
      some ([.peeked (.word 0)], []) := by decide
/-- The first step after reset runs a word placed for it: `109` with the parameter cell 5, `rb <- 0 + 5`. -/
theorem test_withFetchWord :
    observe (State.reset.withFetchWord 128 (109 + 5 * 2 ^ 64)) (fun t => (t.rb, t.pc)) = some (5, 2) := by decide

/-- P1's listing assembles to the cells the spec gives. -/
theorem test_assemble_countdown :
    assemble [.code .out [.position (.label "n")],
      .code .add [.position (.label "n"), literal (-1), .position (.label "n")],
      .code .jt [.position (.label "n"), literal 0], .code .hlt [], .label "n", .data [.number 3]] =
      some [4, 10, 1001, 10, -1, 10, 1005, 10, 0, 99, 3] := by decide
/-- R75: a write operand may not be immediate. -/
theorem test_assemble_immediate_target : assemble [.code .mov [literal 1, literal 2]] = none := by decide

/-! ## Witnesses: states and operands that meet the hypotheses of each statement, clause by clause -/

/-- A machine of few cells. -/
def small (limit : Nat) (program : List Word) : State :=
  { machine program with params := { memLimit := limit, queueCapacity := some 2 } }

theorem witness_DecodeOfEncode : (Instr.add .relative .relative .relative).wellFormed = true := by decide

/-- The last cell's parameter exists, the next does not. -/
theorem witness_ReadParameterResolution :
    (small 3 [4, 0, 0]).pc + (2 : Fin 4).val < (small 3 [4, 0, 0]).params.memLimit ∧
      ¬ (small 3 [4, 0, 0]).pc + (3 : Fin 4).val < (small 3 [4, 0, 0]).params.memLimit := by decide

theorem witness_WriteParameterResolution :
    (small 3 [3, 0, 0]).pc + (2 : Fin 4).val < (small 3 [3, 0, 0]).params.memLimit ∧
      ¬ (small 3 [3, 0, 0]).pc + (3 : Fin 4).val < (small 3 [3, 0, 0]).params.memLimit ∧
      Mode.relative ≠ Mode.immediate := by decide

/-- V32: the first parameter resolves, the second does not. -/
theorem witness_OperandFaultsInOrder :
    (Instr.jt .position .position).wellFormed = true ∧
      (machine [5, 4, -1, 99, 0]).firstParamFault (.jt .position .position) =
        some { code := .addressOutOfRange, param := 2, value := -1 } := by decide

/-- The sum is `WMAX`, then `WMAX + 1`; the target is the last cell of six. -/
theorem witness_AddWritesExactSum :
    (∀ x ∈ ([9223372036854775806, 9223372036854775807] : List Word),
      (small 6 [1101, x, 1, 5]).mem.wf = true ∧ (small 6 [1101, x, 1, 5]).readable 1 .immediate ∧
        (small 6 [1101, x, 1, 5]).readable 2 .immediate ∧ (small 6 [1101, x, 1, 5]).targetable 3 .position) ∧
    fits (((small 6 [1101, 9223372036854775806, 1, 5]).operand 1 .immediate).toInt +
      ((small 6 [1101, 9223372036854775806, 1, 5]).operand 2 .immediate).toInt) = true ∧
    fits (((small 6 [1101, 9223372036854775807, 1, 5]).operand 1 .immediate).toInt +
      ((small 6 [1101, 9223372036854775807, 1, 5]).operand 2 .immediate).toInt) = false := by
  refine ⟨fun x hx => ?_, by decide, by decide⟩
  simp only [List.mem_cons, List.not_mem_nil, or_false] at hx
  rcases hx with rfl | rfl <;> decide

/-- The product is `WMIN`, then `-WMIN`. -/
theorem witness_MulWritesExactProduct :
    (∀ x ∈ ([1, -1] : List Word),
      (small 6 [1102, -9223372036854775808, x, 5]).mem.wf = true ∧
        (small 6 [1102, -9223372036854775808, x, 5]).readable 1 .immediate ∧
        (small 6 [1102, -9223372036854775808, x, 5]).readable 2 .immediate ∧
        (small 6 [1102, -9223372036854775808, x, 5]).targetable 3 .position) ∧
    fits (((small 6 [1102, -9223372036854775808, 1, 5]).operand 1 .immediate).toInt *
      ((small 6 [1102, -9223372036854775808, 1, 5]).operand 2 .immediate).toInt) = true ∧
    fits (((small 6 [1102, -9223372036854775808, -1, 5]).operand 1 .immediate).toInt *
      ((small 6 [1102, -9223372036854775808, -1, 5]).operand 2 .immediate).toInt) = false := by
  refine ⟨fun x hx => ?_, by decide, by decide⟩
  simp only [List.mem_cons, List.not_mem_nil, or_false] at hx
  rcases hx with rfl | rfl <;> decide

theorem witness_LessThanWritesOneOrZero :
    (machine [20007, 0, 4, 1, 3]).mem.wf = true ∧ (machine [20007, 0, 4, 1, 3]).readable 1 .position ∧
      (machine [20007, 0, 4, 1, 3]).readable 2 .position ∧ (machine [20007, 0, 4, 1, 3]).targetable 3 .relative := by
  decide

theorem witness_EqualsWritesOneOrZero :
    (machine [20008, 0, 4, 1, 3]).mem.wf = true ∧ (machine [20008, 0, 4, 1, 3]).readable 1 .position ∧
      (machine [20008, 0, 4, 1, 3]).readable 2 .position ∧ (machine [20008, 0, 4, 1, 3]).targetable 3 .relative := by
  decide

/-- One state with a value waiting and one without, under each policy. -/
theorem witness_InputByQueueAndPolicy :
    (small 2 [3, 1]).mem.wf = true ∧ (small 2 [3, 1]).targetable 1 .position ∧
      ({ small 2 [3, 1] with queue := [7] } : State).targetable 1 .position ∧
      ({ small 2 [3, 1] with queue := [7] } : State).queue = 7 :: [] ∧
      (∀ p ∈ ([.fatal, .defaultZero, .block] : List Policy),
        ({ small 2 [3, 1] with policy := p } : State).targetable 1 .position ∧
          ({ small 2 [3, 1] with policy := p } : State).queue = [] ∧
          ({ small 2 [3, 1] with policy := p } : State).policy = p) := by decide

/-- The operand is the last cell. -/
theorem witness_OutputYieldsOperand : (small 2 [4, 1]).readable 1 .position := by decide

/-- Taken to the last cell; taken to a cell that does not exist, either side; not taken. -/
theorem witness_JumpIfTrueByOperand :
    (∀ b ∈ ([3, 4, -1] : List Word), (small 4 [1105, 1, b]).readable 1 .immediate ∧
      (small 4 [1105, 1, b]).readable 2 .immediate ∧ ((small 4 [1105, 1, b]).operand 1 .immediate).toInt ≠ 0) ∧
    ((small 4 [1105, 1, 3]).operand 2 .immediate).toInt = 3 ∧
    ((small 4 [1105, 1, 4]).operand 2 .immediate).toInt = (small 4 [1105, 1, 4]).params.memLimit ∧
    ((small 4 [1105, 1, -1]).operand 2 .immediate).toInt = -1 ∧
    (small 4 [1105, 0, 3]).readable 1 .immediate ∧ ((small 4 [1105, 0, 3]).operand 1 .immediate).toInt = 0 := by
  refine ⟨fun b hb => ?_, by decide, by decide, by decide, by decide, by decide⟩
  simp only [List.mem_cons, List.not_mem_nil, or_false] at hb
  rcases hb with rfl | rfl | rfl <;> decide

theorem witness_JumpIfFalseByOperand :
    (∀ b ∈ ([3, 4, -1] : List Word), (small 4 [1106, 0, b]).readable 1 .immediate ∧
      (small 4 [1106, 0, b]).readable 2 .immediate ∧ ((small 4 [1106, 0, b]).operand 1 .immediate).toInt = 0) ∧
    ((small 4 [1106, 0, 3]).operand 2 .immediate).toInt = 3 ∧
    ((small 4 [1106, 0, 4]).operand 2 .immediate).toInt = (small 4 [1106, 0, 4]).params.memLimit ∧
    ((small 4 [1106, 0, -1]).operand 2 .immediate).toInt = -1 ∧
    (small 4 [1106, -1, 3]).readable 1 .immediate ∧ ((small 4 [1106, -1, 3]).operand 1 .immediate).toInt ≠ 0 := by
  refine ⟨fun b hb => ?_, by decide, by decide, by decide, by decide, by decide⟩
  simp only [List.mem_cons, List.not_mem_nil, or_false] at hb
  rcases hb with rfl | rfl | rfl <;> decide

/-- `rb + a` is `WMAX`, then `WMAX + 1`. -/
theorem witness_AdjustBaseAddsOperand :
    (∀ r ∈ ([9223372036854775806, 9223372036854775807] : List Word),
      ({ small 2 [109, 1] with rb := r } : State).readable 1 .immediate) ∧
    fits (({ small 2 [109, 1] with rb := 9223372036854775806 } : State).rb.toInt +
      (({ small 2 [109, 1] with rb := 9223372036854775806 } : State).operand 1 .immediate).toInt) = true ∧
    fits (({ small 2 [109, 1] with rb := 9223372036854775807 } : State).rb.toInt +
      (({ small 2 [109, 1] with rb := 9223372036854775807 } : State).operand 1 .immediate).toInt) = false := by
  refine ⟨fun x hx => ?_, by decide, by decide⟩
  simp only [List.mem_cons, List.not_mem_nil, or_false] at hx
  rcases hx with rfl | rfl <;> decide

/-- `mov`, `not` and `clr` with parameter words 0, then `jmp` and `nop`. -/
theorem witness_PseudoInstructionEffects :
    (machine [1101, 0, 0, 5]).mem.wf = true ∧ (machine [1101, 0, 0, 5]).readable 1 .immediate ∧
      (machine [1101, 0, 0, 5]).targetable 3 .position ∧ (machine [1101, 0, 0, 5]).paramWord 2 = 0 ∧
      (machine [1101, 0, 0, 5]).paramWord 1 = 0 ∧
    (small 3 [1105, 1, 2]).hasParam 1 ∧ (small 3 [1105, 1, 2]).readable 2 .immediate ∧
      (small 3 [1105, 1, 2]).paramWord 1 = 1 ∧ ((small 3 [1105, 1, 2]).operand 2 .immediate).toInt = 2 ∧
    (small 3 [1105, 0, 0]).hasParam 1 ∧ (small 3 [1105, 0, 0]).readable 2 .immediate ∧
      (small 3 [1105, 0, 0]).paramWord 1 = 0 := by decide

/-- The instruction word is the last cell. -/
theorem witness_StepRunsDecodedInstruction :
    (small 1 [99]).status = .running ∧ (small 1 [99]).pc < (small 1 [99]).params.memLimit ∧
      decode ((small 1 [99]).cell (small 1 [99]).pc) = .ok .hlt := by decide

theorem witness_FetchOutsideMemoryFaults :
    ({ small 1 [99] with pc := 1 } : State).status = .running ∧
      ¬ ({ small 1 [99] with pc := 1 } : State).pc < ({ small 1 [99] with pc := 1 } : State).params.memLimit := by decide

theorem witness_RejectedWordFaults :
    (small 1 [98]).status = .running ∧ (small 1 [98]).pc < (small 1 [98]).params.memLimit ∧
      decode ((small 1 [98]).cell (small 1 [98]).pc) = .error (.illegalOpcode 98) ∧
    (small 1 [103]).status = .running ∧ (small 1 [103]).pc < (small 1 [103]).params.memLimit ∧
      decode ((small 1 [103]).cell (small 1 [103]).pc) = .error (.illegalMode 1 1) := by decide

/-- Each clause of the order: V59's fetch, `98`, `103`, V32's operand, V4, V12, V44, V15, V30 and its like. -/
theorem witness_FaultPriority :
    (∀ s ∈ ([{ small 1 [99] with pc := 1 }, small 1 [98], small 1 [103], machine [5, 4, -1, 99, 0],
        machine [1101, 9223372036854775807, 1, 5], machine [1102, -9223372036854775808, -1, 5],
        { machine [109, 1] with rb := 9223372036854775807 }, machine [3, 0], machine [1105, 1, -1],
        machine [1106, 0, -1]] : List State), s.status = .running) ∧
    (machine [1101, 9223372036854775807, 1, 5]).firstParamFault (.add .immediate .immediate .position) = none ∧
    (machine [1102, -9223372036854775808, -1, 5]).firstParamFault (.mul .immediate .immediate .position) = none ∧
    fits (((machine [1102, -9223372036854775808, -1, 5]).operand 1 .immediate).toInt *
      ((machine [1102, -9223372036854775808, -1, 5]).operand 2 .immediate).toInt) = false ∧
    (machine [109, 1]).firstParamFault (.arb .immediate) = none ∧
    (machine [3, 0]).firstParamFault (.inp .position) = none ∧ (machine [3, 0]).queue = [] ∧
    (machine [3, 0]).policy = .fatal ∧
    (machine [1105, 1, -1]).firstParamFault (.jt .immediate .immediate) = none ∧
    (machine [1105, 1, -1]).operand 1 .immediate ≠ 0 ∧
    (machine [1106, 0, -1]).firstParamFault (.jf .immediate .immediate) = none ∧
    (machine [1106, 0, -1]).operand 1 .immediate = 0 := by decide

/-- The clauses about the operation's own check: the decoded instruction and the check that fails. -/
theorem witness_FaultPriority_checks :
    decode ((machine [5, 4, -1, 99, 0]).cell 0) = .ok (.jt .position .position) ∧
    decode ((machine [1101, 9223372036854775807, 1, 5]).cell 0) = .ok (.add .immediate .immediate .position) ∧
    fits (((machine [1101, 9223372036854775807, 1, 5]).operand 1 .immediate).toInt +
      ((machine [1101, 9223372036854775807, 1, 5]).operand 2 .immediate).toInt) = false ∧
    fits (({ machine [109, 1] with rb := 9223372036854775807 } : State).rb.toInt +
      (({ machine [109, 1] with rb := 9223372036854775807 } : State).operand 1 .immediate).toInt) = false ∧
    ¬ (0 ≤ ((machine [1105, 1, -1]).operand 2 .immediate).toInt) ∧
    ¬ (0 ≤ ((machine [1106, 0, -1]).operand 2 .immediate).toInt) := by decide

theorem witness_FaultEntryWritesRecord : (small 1 [98]).pc < (small 1 [98]).params.memLimit := by decide

theorem witness_FaultsArePrecise :
    (small 1 [98]).status = .running ∧ ∃ t, step (small 1 [98]) = .next t ∧ t.status = .faulted :=
  ⟨rfl, _, rfl, rfl⟩

/-- One step that goes on and one that ends the ADVANCE. -/
theorem witness_AdvanceRespondsOnceAtItsEnd :
    (machine [1105, 1, 4]).status = .running ∧ (∃ t, step (machine [1105, 1, 4]) = .next t ∧ t.status = .running) ∧
      (machine [99]).status = .running ∧ ∃ t, step (machine [99]) = .next t ∧ t.status = .halted :=
  ⟨rfl, ⟨_, rfl, rfl⟩, rfl, _, rfl, rfl⟩

/-- One step: the only state before the last is the first. -/
theorem witness_AdvanceRunYieldsOneResponse :
    (machine [99]).status = .running ∧
      (∀ (k : Nat) (u : State), k < 1 → Sys2Proof.core.run k (machine [99]) = .next u → State.status u = .running) ∧
      ∃ t : State, Sys2Proof.core.run 1 (machine [99]) = .next t := by
  refine ⟨rfl, fun k u hk h => ?_, _, run_succ (n := 0) rfl⟩
  obtain rfl : k = 0 := by omega
  rw [run_zero] at h
  cases h
  rfl

theorem witness_OnlyOutputAndBlockedInputSuspend :
    (machine [104, 5]).status = .running ∧ (∃ t, step (machine [104, 5]) = .next t ∧ t.status = .ready) ∧
      ∃ t, step { machine [3, 0] with policy := .block } = .next t ∧ t.status = .ready :=
  ⟨rfl, ⟨_, rfl, rfl⟩, _, rfl, rfl⟩

theorem witness_OnlyAdjustBaseWritesRb :
    (machine [109, 5]).status = .running ∧
      ∃ t, step (machine [109, 5]) = .next t ∧ t.rb ≠ (machine [109, 5]).rb :=
  ⟨rfl, _, rfl, by decide⟩

theorem witness_OnlyStoreTargetChanges :
    (machine [1101, 2, 3, 5]).mem.wf = true ∧ (machine [1101, 2, 3, 5]).status = .running ∧
      ∃ t, step (machine [1101, 2, 3, 5]) = .next t ∧ t.cell 5 ≠ (machine [1101, 2, 3, 5]).cell 5 :=
  ⟨rfl, rfl, _, rfl, by decide⟩

theorem witness_OnlyInputTakesFromQueue :
    ∃ t, step { machine [3, 0] with queue := [7] } = .next t ∧ t.queue ≠ [7] :=
  ⟨_, rfl, by decide⟩

theorem witness_OnlyInputReadsQueueAndPolicy :
    (∀ dst, Instr.arb .immediate ≠ .inp dst) ∧ ∃ t, exec (.arb .immediate) (machine [109, 5]) = .next t :=
  ⟨fun _ h => (by cases h), _, rfl⟩

theorem witness_EngineKeepsConfiguration :
    (machine [99]).status = .running ∧ ∃ t, step (machine [99]) = .next t := ⟨rfl, _, rfl⟩

/-- An `add` that makes the word after it a halt: `90 + 9 = 99` at cell 4. -/
theorem witness_StoreSeenByNextFetch :
    (machine [1101, 90, 9, 4]).mem.wf = true ∧ (machine [1101, 90, 9, 4]).status = .running ∧
      (machine [1101, 90, 9, 4]).pc < (machine [1101, 90, 9, 4]).params.memLimit ∧
      decode ((machine [1101, 90, 9, 4]).cell (machine [1101, 90, 9, 4]).pc) =
        .ok (.add .immediate .immediate .position) ∧
      (machine [1101, 90, 9, 4]).readable 1 .immediate ∧ (machine [1101, 90, 9, 4]).readable 2 .immediate ∧
      (machine [1101, 90, 9, 4]).targetable 3 .position ∧
      (machine [1101, 90, 9, 4]).target 3 .position = (machine [1101, 90, 9, 4]).pc + 4 ∧
      (99 : Word).toInt = ((machine [1101, 90, 9, 4]).operand 1 .immediate).toInt +
        ((machine [1101, 90, 9, 4]).operand 2 .immediate).toInt ∧ decode 99 = .ok .hlt := by decide

/-- V33. -/
theorem witness_SelfJumpHangs :
    (machine [1105, 1, 0]).status = .running ∧ (machine [1105, 1, 0]).pc < (machine [1105, 1, 0]).params.memLimit ∧
      decode ((machine [1105, 1, 0]).cell (machine [1105, 1, 0]).pc) = .ok (.jt .immediate .immediate) ∧
      (machine [1105, 1, 0]).readable 1 .immediate ∧ (machine [1105, 1, 0]).readable 2 .immediate ∧
      ((machine [1105, 1, 0]).operand 1 .immediate).toInt ≠ 0 ∧
      ((machine [1105, 1, 0]).operand 2 .immediate).toInt = (machine [1105, 1, 0]).pc := by decide

theorem witness_StatusTransitions : ∃ t, step { State.reset with commands := [.advance] } = .next t ∧ t.status = .running :=
  ⟨_, rfl, rfl⟩

theorem witness_OnlyLoadLeavesTerminalStatus :
    (∃ t, step { State.reset with status := .halted, commands := [.patch 0 99] } = .next t) ∧
      (∃ t, step { State.reset with status := .faulted, commands := [.advance] } = .next t) ∧
      ∀ program policy rest, [Command.advance] ≠ .load program policy :: rest :=
  ⟨⟨_, rfl⟩, ⟨_, rfl⟩, fun _ _ _ h => (by cases h)⟩

theorem witness_AdvanceByStatus :
    ∀ v ∈ ([.ready, .halted, .faulted] : List Status),
      ({ State.reset with status := v, commands := [.advance] } : State).commands = .advance :: [] ∧
        ({ State.reset with status := v, commands := [.advance] } : State).status = v := by decide

theorem witness_IdleHoldsState : State.reset.status ≠ .running ∧ State.reset.commands = [] := by decide

/-- A program that just fits with the greatest word in it; one cell too many; a value beyond the word; policy 3. -/
theorem witness_LoadResetsEverything :
    ({ small 2 [] with status := .halted, commands := [.load [9223372036854775807, 99] 2] } : State).status ≠ .running ∧
    ({ small 2 [] with status := .halted, commands := [.load [9223372036854775807, 99] 2] } : State).commands =
      .load [9223372036854775807, 99] 2 :: [] ∧
    (∀ v ∈ ([9223372036854775807, 99] : List Int), wMin ≤ v ∧ v ≤ wMax) ∧
    ([9223372036854775807, 99] : List Int).length ≤ (small 2 []).params.memLimit ∧ (2 : BitVec 2) ≠ 3 ∧
    ¬ ([1, 2, 3] : List Int).length ≤ (small 2 []).params.memLimit ∧
    ¬ (∀ v ∈ ([9223372036854775808] : List Int), wMin ≤ v ∧ v ≤ wMax) := by decide

/-- A queue one short of its capacity of 2, and one at it. -/
theorem witness_PushInputAppends :
    ({ small 2 [] with status := .ready, queue := [1], commands := [.pushInput 5] } : State).status ≠ .running ∧
    ({ small 2 [] with status := .ready, queue := [1], commands := [.pushInput 5] } : State).commands =
      .pushInput 5 :: [] ∧
    (∀ c, (small 2 []).params.queueCapacity = some c → ([1] : List Word).length < c) ∧
    (small 2 []).params.queueCapacity = some 2 ∧ 2 ≤ ([1, 2] : List Word).length := by
  refine ⟨by decide, by decide, fun c h => ?_, by decide, by decide⟩
  cases h
  decide

/-- The last cell, and the addresses on either side of memory. -/
theorem witness_PatchWritesOneCell :
    ({ small 2 [] with status := .halted, commands := [.patch 1 5] } : State).mem.wf = true ∧
    ({ small 2 [] with status := .halted, commands := [.patch 1 5] } : State).status ≠ .running ∧
    ({ small 2 [] with status := .halted, commands := [.patch 1 5] } : State).commands = .patch 1 5 :: [] ∧
    (1 : Int) < (small 2 []).params.memLimit ∧ ¬ ((2 : Int) < (small 2 []).params.memLimit) ∧ ¬ (0 ≤ (-1 : Int)) := by
  decide

theorem witness_PeekOnlyAnswers :
    ({ small 2 [] with status := .ready, commands := [.peek (.memory 1)] } : State).status ≠ .running ∧
    ({ small 2 [] with status := .ready, commands := [.peek (.memory 1)] } : State).commands =
      .peek (.memory 1) :: [] ∧
    1 < (small 2 []).params.memLimit ∧ ¬ (0 ≤ (2 : Int) ∧ (2 : Int) < (small 2 []).params.memLimit) := by decide

theorem witness_BlockedInputResumes :
    ∀ s : State, s = { small 2 [3, 1] with policy := .block, commands := [.pushInput 7, .advance] } →
      s.mem.wf = true ∧ s.status = .running ∧ s.pc < s.params.memLimit ∧
        decode (s.cell s.pc) = .ok (.inp .position) ∧ s.targetable 1 .position ∧ s.queue = [] ∧ s.policy = .block ∧
        s.params.queueCapacity ≠ some 0 ∧ s.commands = .pushInput 7 :: .advance :: [] := by
  rintro s rfl
  decide

theorem reset_Inv : State.reset.Inv := by constructor <;> decide

theorem witness_StepKeepsInv :
    State.reset.Inv ∧ ∃ t, step State.reset = .next t :=
  ⟨reset_Inv, _, rfl⟩

theorem witness_FaultRecordFitsItsBits : State.reset.Inv := reset_Inv

/-- With the other idle, and with the other inside an ADVANCE. -/
theorem witness_InstancesShareNothing :
    [machine [99], State.reset][0]? = some (machine [99]) ∧
      (∃ ys, stepInstance [machine [99], State.reset] 0 = .next ys) ∧
      (∀ (j : Nat) (u : State), j ≠ 0 → [machine [99], State.reset][j]? = some u → u.status ≠ .running) ∧
    [machine [99], State.reset][1]? = some State.reset ∧
      (∃ ys, stepInstance [machine [99], State.reset] 1 = .next ys) ∧
      [machine [99], State.reset][0]? = some (machine [99]) ∧ (machine [99]).status = .running :=
  ⟨rfl, ⟨_, rfl⟩, othersIdle_iff.1 rfl, rfl, ⟨_, rfl⟩, rfl, rfl⟩

/-- R12: with instance 0 inside an ADVANCE, instance 1 does not start the one it has been given. -/
theorem test_other_instance_waits :
    stepInstance [machine [99], { State.reset with commands := [.advance] }] 1 =
      .next [machine [99], { State.reset with commands := [.advance] }] := rfl

theorem witness_InstancesNeverRunConcurrently :
    oneRunsAtMost [machine [99], State.reset] ∧ ∃ ys, stepInstance [machine [99], State.reset] 0 = .next ys := by
  have only : ∀ (i : Nat) (s : State), [machine [99], State.reset][i]? = some s → s.status = .running → i = 0 := by
    intro i s hs hr
    by_contra hi
    exact (othersIdle_iff (xs := [machine [99], State.reset]) (k := 0)).1 rfl i s hi hs hr
  exact ⟨fun i j s t hs ht hi hj => (only i s hs hi).trans (only j t ht hj).symm, _, rfl⟩

end Sys2Proof.Tests
end

section
/-! SUPPORT. Proofs of the statements of 00_scope.md: the invariant, the engine's frame, the widths of `pc` and FAULT,
turns of several machines. -/

namespace Sys2Proof.Machine

open Sys2Proof

/-! ## The invariant under each update of the state -/

section Updates

variable {s : State}

theorem State.Inv.setCell {a : Nat} (h : s.Inv) (ha : a < s.params.memLimit) (v : Word) : (s.setCell a v).Inv :=
  { h with
    memory := Memory.write_wf h.memory
    below := Memory.write_below h.below ha }

/-- `pc` moves only where no fault is recorded, since a faulted machine's `pc` stays at the fault (R157). -/
theorem State.Inv.setPc {v : Nat} (h : s.Inv) (hs : s.status ≠ .faulted) (hv : v ≤ s.params.memLimit) :
    (s.setPc v).Inv :=
  { h with
    pc := hv
    faultPc := fun hf => absurd hf hs }

theorem State.Inv.setRb (h : s.Inv) (v : Word) : (s.setRb v).Inv := { h with }

theorem State.Inv.setQueue {q : List Word} (h : s.Inv)
    (hq : ∀ c, s.params.queueCapacity = some c → q.length ≤ c) : (s.setQueue q).Inv :=
  { h with queue := hq }

theorem State.Inv.setStatus {v : Status} (h : s.Inv) (hs : s.status ≠ .faulted) (hv : v ≠ .faulted) :
    (s.setStatus v).Inv :=
  { h with
    faulted := iff_of_false hv fun hc => hs (h.faulted.2 hc)
    faultPc := fun hf => absurd hf hv }

theorem State.Inv.respond (h : s.Inv) (r : Response) : (s.respond r).Inv := { h with }

theorem State.Inv.setCommands (h : s.Inv) (cs : List Command) : ({ s with commands := cs } : State).Inv := { h with }

/-- The value of a proper fault fits `WORD_BITS + 1` bits: a parameter cell's address is at most `MEM_LIMIT + 3`. -/
theorem State.Inv.raise {f : FaultInfo} (h : s.Inv) (hf : f.proper s) : (s.raise f).Inv := by
  obtain ⟨hcode, lo, hi⟩ := hf
  have hpc := h.pc
  have hlimit := h.limit.2
  exact
    { h with
      faulted := iff_of_true rfl hcode
      clear := fun hc => absurd hc hcode
      faultPc := fun _ => rfl
      faultValue := ⟨lo, show f.value < _ by omega⟩ }

theorem State.Inv.conclude (h : s.Inv) (hs : s.status ≠ .faulted) (e : StepEnd) : (s.conclude e).Inv := by
  cases e with
  | proceed => exact h
  | output v => exact (h.setStatus hs (by decide)).respond _
  | needInput => exact (h.setStatus hs (by decide)).respond _
  | halted => exact (h.setStatus hs (by decide)).respond _

end Updates

/-! ## The invariant under an instruction -/

section Instruction

variable {s t : State}

/-- The commit of a three-operand instruction: the cell of parameter 3 exists, so `pc + 4` is at most the limit. -/
theorem State.Inv.storeThird {dst : Mode} (h : s.Inv) (hs : s.status ≠ .faulted) (hd : s.targetable 3 dst) (v : Word) :
    ((s.setCell (s.target 3 dst) v).setPc (s.pc + 4)).Inv :=
  (h.setCell (State.target_lt hd) v).setPc hs (show s.pc + 3 < _ from hd.2.1)

/-- The commit of `in`. -/
theorem State.Inv.storeFirst {dst : Mode} (h : s.Inv) (hs : s.status ≠ .faulted) (hd : s.targetable 1 dst) (v : Word) :
    ((s.setCell (s.target 1 dst) v).setPc (s.pc + 2)).Inv :=
  (h.setCell (State.target_lt hd) v).setPc hs (show s.pc + 1 < _ from hd.2.1)

/-- The commit of a jump that is not taken. -/
theorem State.Inv.passJump {b : Mode} (h : s.Inv) (hs : s.status ≠ .faulted) (hb : s.readable 2 b) :
    (s.setPc (s.pc + 3)).Inv :=
  h.setPc hs (show s.pc + 2 < _ from hb.1)

/-- The commit of a jump that is taken. -/
theorem State.Inv.takeJump {v : Int} (h : s.Inv) (hs : s.status ≠ .faulted) (hv : s.isAddr v = true) :
    (s.setPc v.toNat).Inv := by
  obtain ⟨lo, hi⟩ := State.isAddr_iff.1 hv
  exact h.setPc hs (by omega)

/-- The effect of every instruction keeps the invariant. -/
theorem State.Inv.commits {i : Instr} (h : s.Inv) (hs : s.status ≠ .faulted) (hc : Commits s t i) : t.Inv := by
  cases i with
  | add a b dst | mul a b dst =>
    obtain ⟨-, -, hd, -, rfl⟩ := hc
    exact h.storeThird hs hd _
  | lt a b dst | eq a b dst =>
    obtain ⟨-, -, hd, rfl⟩ := hc
    exact h.storeThird hs hd _
  | inp dst =>
    obtain ⟨hd, ⟨v, rest, hq, rfl⟩ | ⟨-, -, rfl⟩ | ⟨-, -, rfl⟩⟩ := hc
    · have hrest : (s.setQueue rest).Inv := h.setQueue fun c hcap => by
        have hlen := h.queue c hcap
        rw [hq, List.length_cons] at hlen
        omega
      exact hrest.storeFirst hs hd v
    · exact h.storeFirst hs hd 0
    · exact h.conclude hs _
  | out a =>
    obtain ⟨ha, rfl⟩ := hc
    exact (h.setPc hs (show s.pc + 1 < _ from ha.1)).conclude hs _
  | jt a b | jf a b =>
    obtain ⟨-, hb, ⟨-, rfl⟩ | ⟨-, haddr, rfl⟩⟩ := hc
    · exact h.passJump hs hb
    · exact h.takeJump hs haddr
  | arb a =>
    obtain ⟨ha, -, rfl⟩ := hc
    exact (h.setRb _).setPc hs (show s.pc + 1 < _ from ha.1)
  | hlt =>
    subst hc
    exact h.conclude hs _

/-- A step of the engine keeps the invariant. -/
theorem State.Inv.engineStep (h : s.Inv) (hs : s.status ≠ .faulted) (ht : engineStep s = .next t) : t.Inv := by
  rcases engineStep_cases ht with ⟨f, hf, rfl⟩ | ⟨-, i, -, hc⟩
  · exact h.raise hf
  · exact h.commits hs hc

end Instruction

/-! ## The invariant under a host command -/

section HostCommand

variable {s : State}

/-- The state after an accepted LOAD (R32): the program fits the memory, and FAULT is clear. -/
theorem State.Inv.load {p : List Int} {q : Policy} (h : s.Inv) (hp : p.length ≤ s.params.memLimit) :
    ({ params := s.params, mem := Memory.image (p.map toWord), pc := 0, rb := 0, queue := [], status := .ready,
       fault := FaultRecord.clear, policy := q, commands := s.commands, responses := s.responses } : State).Inv where
  limit := h.limit
  memory := Memory.image_wf _
  below := Memory.image_below (by rwa [List.length_map])
  pc := Nat.zero_le _
  queue := fun _ _ => Nat.zero_le _
  faulted := by simp [FaultRecord.clear]
  clear := fun _ => rfl
  faultPc := fun _ => rfl
  faultValue := by simp [FaultRecord.clear]

theorem queueHasRoom_length_lt {c : Nat} (h : s.queueHasRoom = true) (hc : s.params.queueCapacity = some c) :
    s.queue.length < c := by
  simpa [State.queueHasRoom, hc] using h

/-- Every host command keeps the invariant. -/
theorem State.Inv.hostCommand (h : s.Inv) (c : Command) : (hostCommand c s).Inv := by
  rcases hostCommand_cases c s with ⟨p, b, q, -, hl, e⟩ | ⟨v, -, hroom, e⟩ | ⟨a, v, -, haddr, e⟩ | ⟨-, hready, e⟩ |
    ⟨-, -, e⟩ | ⟨r, e⟩ <;> rw [e]
  · exact (h.load (loadable_eq_some.1 hl).2.1).respond _
  · have hpushed : (s.setQueue (s.queue ++ [v])).Inv := h.setQueue fun c hcap => by
      simpa using queueHasRoom_length_lt hroom hcap
    exact hpushed.respond _
  · obtain ⟨lo, hi⟩ := State.isAddr_iff.1 haddr
    exact (h.setCell (by omega) v).respond _
  · exact h.setStatus (by simp [hready]) (by decide)
  · exact h
  · exact h.respond r

/-- The invariant holds on while no ADVANCE is in progress. -/
theorem State.Inv.idleStep (h : s.Inv) : (idleStep s).Inv := by
  rcases idleStep_cases s with ⟨-, e⟩ | ⟨c, rest, -, e⟩ <;> rw [e]
  · exact h
  · exact (h.setCommands rest).hostCommand c

end HostCommand

/-- Settles O49: a step is a step of the engine or of the host, and each update it makes keeps the invariant. -/
theorem stepKeepsInv : Obligations.StepKeepsInv := by
  intro s t h hstep
  by_cases hr : s.status = .running
  · rw [step_running hr] at hstep
    exact h.engineStep (by simp [hr]) hstep
  · rw [step_idle hr] at hstep
    cases hstep
    exact h.idleStep

/-! ## The engine's frame -/

/-- No effect of an instruction writes the policy, the parameters or the host's commands. -/
theorem Commits.keeps_configuration {s t : State} {i : Instr} (h : Commits s t i) :
    t.policy = s.policy ∧ t.params = s.params ∧ t.commands = s.commands := by
  cases i with
  | add a b dst | mul a b dst => obtain ⟨-, -, -, -, rfl⟩ := h; simp
  | lt a b dst | eq a b dst => obtain ⟨-, -, -, rfl⟩ := h; simp
  | inp dst => obtain ⟨-, ⟨v, rest, -, rfl⟩ | ⟨-, -, rfl⟩ | ⟨-, -, rfl⟩⟩ := h <;> simp
  | out a => obtain ⟨-, rfl⟩ := h; simp
  | jt a b | jf a b => obtain ⟨-, -, ⟨-, rfl⟩ | ⟨-, -, rfl⟩⟩ := h <;> simp
  | arb a => obtain ⟨-, -, rfl⟩ := h; simp
  | hlt => subst h; simp

/-- Settles O35: a step of the engine takes a fault or commits an instruction's effect. -/
theorem engineKeepsConfiguration : Obligations.EngineKeepsConfiguration := by
  intro s t hr hstep
  rw [step_running hr] at hstep
  rcases engineStep_cases hstep with ⟨f, -, rfl⟩ | ⟨-, i, -, hc⟩
  · simp
  · exact hc.keeps_configuration

/-! ## The widths of `pc` and FAULT -/

theorem State.Inv.pc_lt {s : State} (h : s.Inv) : s.pc < 2 ^ 64 := by
  have hpc := h.pc
  have hlimit := h.limit.2
  omega

/-- `FAULT.pc` is 0 with no fault recorded and `pc` with one. -/
theorem State.Inv.fault_pc_lt {s : State} (h : s.Inv) : s.fault.pc < 2 ^ 64 := by
  by_cases hs : s.status = .faulted
  · rw [h.faultPc hs]
    exact h.pc_lt
  · have hcode : s.fault.code = .none := by_contra fun hc => hs (h.faulted.2 hc)
    rw [h.clear hcode]
    decide

/-- Settles O50: each field lies in the range its width carries. -/
theorem faultRecordFitsItsBits : Obligations.FaultRecordFitsItsBits := by
  intro s h
  refine ⟨?pc, ?faultPc, rfl, ?param, ?value⟩
  case pc => exact (BitVec.toNat_ofNat ..).trans (Nat.mod_eq_of_lt h.pc_lt)
  case faultPc => exact (BitVec.toNat_ofNat ..).trans (Nat.mod_eq_of_lt h.fault_pc_lt)
  case param => exact (BitVec.toNat_ofNat ..).trans (Nat.mod_eq_of_lt s.fault.param.isLt)
  case value =>
    obtain ⟨lo, hi⟩ := h.faultValue
    exact BitVec.toInt_ofInt_eq_self (by decide) (by omega) (by omega)

/-! ## Several instances -/

section Turn

variable {xs ys : List State} {k : Nat}

theorem stepInstance_length (h : stepInstance xs k = .next ys) : ys.length = xs.length := by
  rcases stepInstance_cases h with ⟨s, t, -, -, -, rfl⟩ | ⟨-, rfl⟩
  · exact List.length_set
  · rfl

/-- A turn of machine `k` leaves every other machine as it was. -/
theorem stepInstance_getElem?_ne {j : Nat} (h : stepInstance xs k = .next ys) (hj : j ≠ k) : ys[j]? = xs[j]? := by
  rcases stepInstance_cases h with ⟨s, t, -, -, -, rfl⟩ | ⟨-, rfl⟩
  · exact List.getElem?_set_ne hj.symm
  · rfl

/-- With the others idle before a turn of machine `k`, only `k` can run after it. -/
theorem eq_of_running_after_turn (h : stepInstance xs k = .next ys) (hidle : othersIdle xs k = true) {i : Nat}
    {u : State} (hu : ys[i]? = some u) (hrun : u.status = .running) : i = k := by
  by_contra hi
  rw [stepInstance_getElem?_ne h hi] at hu
  exact othersIdle_iff.1 hidle i u hi hu hrun

end Turn

/-- Settles O53: a turn that changes anything finds the others idle, so after it only its own machine can run. -/
theorem instancesNeverRunConcurrently : Obligations.InstancesNeverRunConcurrently := by
  intro xs ys k hone hturn
  rcases stepInstance_cases hturn with ⟨-, -, -, hidle, -, -⟩ | ⟨-, rfl⟩
  · intro i j s t hs ht hsr htr
    have hi : i = k := eq_of_running_after_turn hturn hidle hs hsr
    have hj : j = k := eq_of_running_after_turn hturn hidle ht htr
    exact hi.trans hj.symm
  · exact hone

/-- Settles O52: the two forms a turn can take, by whether the others are idle. -/
theorem instancesShareNothing : Obligations.InstancesShareNothing := by
  intro xs ys k s hk hturn
  refine ⟨fun hothers => ?_, fun j u hj hu hrun => ?_, stepInstance_length hturn,
    fun j hj => stepInstance_getElem?_ne hturn hj⟩
  · have hidle : othersIdle xs k = true := othersIdle_iff.2 hothers
    rcases stepInstance_cases hturn with ⟨s', t, hk', -, hstep, rfl⟩ | ⟨hnone | hbusy, -⟩
    · obtain rfl : s = s' := Option.some.inj (hk.symm.trans hk')
      have hlt : k < xs.length := (List.getElem?_eq_some_iff.1 hk).1
      exact ⟨t, hstep, List.getElem?_set_self hlt⟩
    · rw [hk] at hnone; cases hnone
    · rw [hidle] at hbusy; cases hbusy
  · rcases stepInstance_cases hturn with ⟨-, -, -, hidle, -, -⟩ | ⟨-, rfl⟩
    · exact absurd hrun (othersIdle_iff.1 hidle j u hj hu)
    · rfl

end Sys2Proof.Machine
end

section
/-! SUPPORT. Proofs of the statements of 10_state.md: what a running step may write, what a host command keeps, the
values at reset, the numbers on the interface. -/

namespace Sys2Proof.Machine

open Sys2Proof

/-! ## What the engine writes in memory, `rb` and the queue -/

section DataWrites

variable {s t : State} {i : Instr}

theorem State.cell_congr (h : t.mem = s.mem) (x : Nat) : t.cell x = s.cell x := congrArg (·.read x) h

/-- The ways in which instruction `i`, executed in `s`, writes to memory, `rb` or the queue (R33). -/
inductive DataWrite (s : State) : Instr → State → Prop where
  /-- `add`, `mul`, `lt`, `eq`, and `in` on an empty queue under `DefaultZero`. -/
  | store {i : Instr} {x : Nat} (v : Word) (pc : Nat) (hx : s.storeTarget i = some x) :
      DataWrite s i ((s.setCell x v).setPc pc)
  /-- `in`: the front of the queue goes to the target. -/
  | input {v : Word} {rest : List Word} (dst : Mode) (pc : Nat) (hq : s.queue = v :: rest) :
      DataWrite s (.inp dst) (((s.setQueue rest).setCell (s.target 1 dst) v).setPc pc)
  /-- `arb`. -/
  | adjust {a : Mode} (pc : Nat) (hfits : fits (s.rb.toInt + (s.operand 1 a).toInt) = true) :
      DataWrite s (.arb a) ((s.setRb (toWord (s.rb.toInt + (s.operand 1 a).toInt))).setPc pc)

/-- `t` has the memory, the `rb` and the queue of `s`. -/
structure SameData (s t : State) : Prop where
  mem : t.mem = s.mem
  rb : t.rb = s.rb
  queue : t.queue = s.queue

theorem SameData.raise (s : State) (f : FaultInfo) : SameData s (s.raise f) := ⟨rfl, rfl, rfl⟩

theorem SameData.setPc (s : State) (pc : Nat) : SameData s (s.setPc pc) := ⟨rfl, rfl, rfl⟩

theorem SameData.conclude (h : SameData s t) (e : StepEnd) : SameData s (t.conclude e) :=
  ⟨by simp [h.mem], by simp [h.rb], by simp [h.queue]⟩

/-- An instruction's effect is one data write, or moves `pc` and ends the ADVANCE at most. -/
theorem Commits.sameData_or_dataWrite (h : Commits s t i) : SameData s t ∨ DataWrite s i t := by
  cases i with
  | add a b dst | mul a b dst => obtain ⟨-, -, -, -, rfl⟩ := h; exact .inr (.store _ _ rfl)
  | lt a b dst | eq a b dst => obtain ⟨-, -, -, rfl⟩ := h; exact .inr (.store _ _ rfl)
  | inp dst =>
    obtain ⟨-, ⟨v, rest, hq, rfl⟩ | ⟨-, -, rfl⟩ | ⟨-, -, rfl⟩⟩ := h
    · exact .inr (.input dst _ hq)
    · exact .inr (.store _ _ rfl)
    · exact .inl (SameData.conclude ⟨rfl, rfl, rfl⟩ _)
  | out a => obtain ⟨-, rfl⟩ := h; exact .inl ((SameData.setPc s _).conclude _)
  | jt a b | jf a b => obtain ⟨-, -, ⟨-, rfl⟩ | ⟨-, -, rfl⟩⟩ := h <;> exact .inl (SameData.setPc s _)
  | arb a => obtain ⟨-, hfits, rfl⟩ := h; exact .inr (.adjust _ hfits)
  | hlt => subst h; exact .inl (SameData.conclude ⟨rfl, rfl, rfl⟩ _)

/-- A running step leaves the data as they are, a fault among them, or makes the decoded instruction's data write. -/
theorem step_sameData_or_dataWrite (hr : s.status = .running) (h : step s = .next t) :
    SameData s t ∨ ∃ i, decode (s.cell s.pc) = .ok i ∧ DataWrite s i t := by
  rw [step_running hr] at h
  rcases engineStep_cases h with ⟨f, -, rfl⟩ | ⟨-, i, hd, hc⟩
  · exact .inl (SameData.raise s f)
  · exact hc.sameData_or_dataWrite.imp_right fun hw => ⟨i, hd, hw⟩

end DataWrites

/-- Settles O31: of the data writes only `adjust` changes `rb`, and the sum it writes fits. -/
theorem onlyAdjustBaseWritesRb : Obligations.OnlyAdjustBaseWritesRb := by
  intro s t hr hstep hne
  rcases step_sameData_or_dataWrite hr hstep with hsame | ⟨i, hd, hw⟩
  · exact absurd hsame.rb hne
  · cases hw with
    | store | input => exact absurd rfl hne
    | @adjust a pc hfits => exact ⟨a, hd, toInt_toWord hfits⟩

/-- Settles O32: of the data writes `store` and `input` change memory, at the store target alone. -/
theorem onlyStoreTargetChanges : Obligations.OnlyStoreTargetChanges := by
  intro s t x hwf hr hstep hne
  rcases step_sameData_or_dataWrite hr hstep with hsame | ⟨i, hd, hw⟩
  · exact absurd (State.cell_congr hsame.mem x) hne
  · refine ⟨i, hd, ?_⟩
    cases hw with
    | @store _ y v pc hx =>
      rw [State.cell_setPc, State.cell_setCell hwf] at hne
      have hxy : x = y := by_contra fun hxy => hne (if_neg hxy)
      rw [hxy]
      exact hx
    | @input v rest dst pc hq =>
      rw [State.cell_setPc, State.cell_setCell (s := s.setQueue rest) hwf] at hne
      have hxt : x = s.target 1 dst := by_contra fun hxt => hne (if_neg hxt)
      rw [hxt]
      rfl
    | adjust => exact absurd rfl hne

/-- Settles O33: of the data writes only `input` changes the queue, and it leaves the rest of it. -/
theorem onlyInputTakesFromQueue : Obligations.OnlyInputTakesFromQueue := by
  intro s t hr hstep hne
  rcases step_sameData_or_dataWrite hr hstep with hsame | ⟨i, hd, hw⟩
  · exact absurd hsame.queue hne
  · cases hw with
    | store | adjust => exact absurd rfl hne
    | @input v rest dst pc hq => exact ⟨dst, v, hd, hq⟩

/-! ## What does not depend on the queue and the policy -/

section OtherInput

variable {s t : State} {q : List Word} {p : Policy}

/-- `s` with another queue and another underflow policy in place. -/
def State.withInput (s : State) (q : List Word) (p : Policy) : State := { s with queue := q, policy := p }

theorem resolveRead_withInput (k : Fin 4) (m : Mode) : resolveRead (s.withInput q p) k m = resolveRead s k m := by
  cases m <;> rfl

theorem resolveWrite_withInput (k : Fin 4) (m : Mode) : resolveWrite (s.withInput q p) k m = resolveWrite s k m := by
  cases m <;> rfl

theorem addrCheck_withInput (a : Int) (k : Fin 4) : addrCheck (s.withInput q p) a k = addrCheck s a k := rfl

theorem State.conclude_withInput (e : StepEnd) : (s.withInput q p).conclude e = (s.conclude e).withInput q p := by
  cases e <;> rfl

/-- Checks and writes that answer alike but for the queue and the policy end in states alike but for them. -/
theorem finish_withInput {r : Except FaultInfo (State × StepEnd)} (h : finish s r = .next t) :
    finish (s.withInput q p) (Prod.map (State.withInput · q p) id <$> r) = .next (t.withInput q p) := by
  rcases finish_next h with ⟨f, rfl, rfl⟩ | ⟨u, e, rfl, rfl⟩
  · rfl
  · exact congrArg _ (State.conclude_withInput e)

theorem threeOperand_withInput {a b dst : Mode} {alu : Word → Word → Except FaultInfo Word}
    (h : threeOperand s a b dst alu = .next t) :
    threeOperand (s.withInput q p) a b dst alu = .next (t.withInput q p) := by
  rw [← finish_withInput h]
  simp only [threeOperand, resolveRead_withInput, resolveWrite_withInput, map_bind]
  rfl

theorem jumpWhen_withInput {a b : Mode} {condition : Word → Bool} (h : jumpWhen s a b condition = .next t) :
    jumpWhen (s.withInput q p) a b condition = .next (t.withInput q p) := by
  rw [← finish_withInput h]
  simp only [jumpWhen, resolveRead_withInput, addrCheck_withInput, map_bind, apply_ite]
  rfl

theorem execOut_withInput {a : Mode} (h : execOut a s = .next t) :
    execOut a (s.withInput q p) = .next (t.withInput q p) := by
  rw [← finish_withInput h]
  simp only [execOut, resolveRead_withInput, map_bind]
  rfl

theorem execArb_withInput {a : Mode} (h : execArb a s = .next t) :
    execArb a (s.withInput q p) = .next (t.withInput q p) := by
  rw [← finish_withInput h]
  simp only [execArb, resolveRead_withInput, map_bind]
  rfl

theorem execHlt_withInput (h : execHlt s = .next t) : execHlt (s.withInput q p) = .next (t.withInput q p) :=
  finish_withInput h

end OtherInput

/-- Settles O34: the checks and writes of every instruction but `in` answer alike with another queue and policy. -/
theorem onlyInputReadsQueueAndPolicy : Obligations.OnlyInputReadsQueueAndPolicy := by
  intro i s t q p hi h
  cases i with
  | add a b dst | mul a b dst | lt a b dst | eq a b dst => exact threeOperand_withInput h
  | inp dst => exact absurd rfl (hi dst)
  | out a => exact execOut_withInput h
  | jt a b | jf a b => exact jumpWhen_withInput h
  | arb a => exact execArb_withInput h
  | hlt => exact execHlt_withInput h

/-! ## STATUS and the host's commands -/

/-- A host command changes STATUS only as an ADVANCE of a Ready machine or as a LOAD (R83, R180). -/
theorem hostCommand_status (c : Command) (s : State) :
    (hostCommand c s).status = s.status ∨
    (c = .advance ∧ s.status = .ready ∧ (hostCommand c s).status = .running) ∨
    (∃ program policy, c = .load program policy) ∧ (hostCommand c s).status = .ready := by
  rcases hostCommand_cases c s with ⟨program, policy, _, hc, -, e⟩ | ⟨_, -, -, e⟩ | ⟨_, _, -, -, e⟩ |
    ⟨hc, hready, e⟩ | ⟨-, -, e⟩ | ⟨_, e⟩ <;> rw [e]
  · exact .inr (.inr ⟨⟨program, policy, hc⟩, rfl⟩)
  · exact .inl rfl
  · exact .inl rfl
  · exact .inr (.inl ⟨hc, hready, rfl⟩)
  · exact .inl rfl
  · exact .inl rfl

/-- No host command but LOAD writes FAULT, `pc` or `rb`. -/
theorem hostCommand_registers {c : Command} (hc : ∀ program policy, c ≠ .load program policy) (s : State) :
    (hostCommand c s).fault = s.fault ∧ (hostCommand c s).pc = s.pc ∧ (hostCommand c s).rb = s.rb := by
  rcases hostCommand_cases c s with ⟨program, policy, _, hload, -, -⟩ | ⟨_, -, -, e⟩ | ⟨_, _, -, -, e⟩ |
    ⟨-, -, e⟩ | ⟨-, -, e⟩ | ⟨_, e⟩
  · exact absurd hload (hc program policy)
  all_goals rw [e]; exact ⟨rfl, rfl, rfl⟩

/-- Settles O38: a running step is the third transition; else STATUS goes as the host's next command has it. -/
theorem statusTransitions : Obligations.StatusTransitions := by
  intro s t hstep
  by_cases hr : s.status = .running
  · exact .inr (.inr (.inl hr))
  rw [step_idle hr] at hstep
  cases hstep
  rcases idleStep_cases s with ⟨-, e⟩ | ⟨c, rest, hcs, e⟩ <;> rw [e]
  · exact .inl rfl
  · rcases hostCommand_status c { s with commands := rest } with hsame | ⟨rfl, hready, hrun⟩ | ⟨⟨_, _, rfl⟩, hload⟩
    · exact .inl hsame
    · exact .inr (.inl ⟨hready, hrun, rest, hcs⟩)
    · exact .inr (.inr (.inr ⟨hload, _, _, rest, hcs⟩))

/-- Settles O39: a Halted or Faulted machine only carries out a host command, and only LOAD changes its STATUS or writes
FAULT, `pc` or `rb`. -/
theorem onlyLoadLeavesTerminalStatus : Obligations.OnlyLoadLeavesTerminalStatus := by
  intro s t hterminal hstep hnoLoad
  have hr : s.status ≠ .running := by rcases hterminal with h | h <;> simp [h]
  have hready : s.status ≠ .ready := by rcases hterminal with h | h <;> simp [h]
  rw [step_idle hr] at hstep
  cases hstep
  rcases idleStep_cases s with ⟨-, e⟩ | ⟨c, rest, hcs, e⟩ <;> rw [e]
  · exact ⟨rfl, rfl, rfl, rfl⟩
  · have hc : ∀ program policy, c ≠ .load program policy := by
      rintro program policy rfl
      exact hnoLoad program policy rest hcs
    refine ⟨?_, hostCommand_registers hc { s with commands := rest }⟩
    rcases hostCommand_status c { s with commands := rest } with hsame | ⟨-, h, -⟩ | ⟨⟨_, _, h⟩, -⟩
    · exact hsame
    · exact absurd h hready
    · exact absurd h (hc _ _)

/-! ## Fault entry -/

theorem State.fetchedWord_of_lt {s : State} (h : s.pc < s.params.memLimit) : s.fetchedWord = s.cell s.pc :=
  if_pos (State.isAddr_iff.2 ⟨by omega, by omega⟩)

/-- Settles O25: the word the record holds is the one at `pc`, which is an address. -/
theorem faultEntryWritesRecord : Obligations.FaultEntryWritesRecord := by
  intro s f hpc
  rw [State.raise, State.recordOf, State.fetchedWord_of_lt hpc]

/-! ## Reset -/

/-- Settles O47: every register at reset, and a memory that lists nothing reads 0. -/
theorem resetValues : Obligations.ResetValues :=
  ⟨fun _ => rfl, rfl, rfl, rfl, rfl, rfl, rfl, rfl, rfl, rfl⟩

/-- Settles O48: memory and queue are empty, FAULT is clear, and STATUS is Ready. -/
theorem resetSatisfiesInv : Obligations.ResetSatisfiesInv where
  limit := by decide
  memory := State.reset_mem_wf
  below := rfl
  pc := Nat.zero_le _
  queue := fun _ _ => Nat.zero_le _
  faulted := by decide
  clear := fun _ => rfl
  faultPc := fun _ => rfl
  faultValue := by decide

/-! ## The numbers on the interface -/

/-- A policy's code names it. -/
theorem Policy.ofCode_code (p : Policy) : Policy.ofCode p.code = some p := by cases p <;> rfl

/-- Settles O51: the tables in their order: STATUS, policy, FAULT.code, refusals, responses. -/
theorem interfaceCodes : Obligations.InterfaceCodes :=
  ⟨rfl, rfl, rfl, rfl,
    rfl, rfl, rfl, rfl, Policy.ofCode_code,
    rfl, rfl, rfl, rfl, rfl, rfl,
    rfl, rfl, rfl, rfl,
    fun _ => rfl, rfl, rfl, fun _ => rfl⟩

end Sys2Proof.Machine
end

section
/-! SUPPORT. Proofs of the statements of 20_memory.md: a store is seen by the next fetch. -/

namespace Sys2Proof.Machine

open Sys2Proof

/-- A running step at a word that decodes is the decoded instruction (R87 to R91). -/
theorem step_eq_exec {s : State} {i : Instr} (hr : s.status = .running) (hpc : s.pc < s.params.memLimit)
    (hd : decode (s.cell s.pc) = .ok i) : step s = exec i s := by
  rw [step_running hr, engineStep, fetch_decoded hpc hd]

/-- A sum that is the value of a word is that word. -/
theorem aluAdd_eq_ok {x y w : Word} (h : w.toInt = x.toInt + y.toInt) : aluAdd x y = .ok w := by
  rw [aluAdd, ← h, narrow_ok (fits_toInt w), toWord_toInt]

/-- `add` of operands whose sum is the word `w` stores `w` (R100). -/
theorem exec_add_ok {s : State} {a b dst : Mode} {w : Word} (ha : s.readable 1 a) (hb : s.readable 2 b)
    (hdst : s.targetable 3 dst) (h : w.toInt = (s.operand 1 a).toInt + (s.operand 2 b).toInt) :
    exec (.add a b dst) s = .next ((s.setCell (s.target 3 dst) w).setPc (s.pc + 4)) :=
  threeOperand_ok ha hb hdst (aluAdd_eq_ok h)

/-- Settles O36: after the `add`, `pc` is the target, an address that reads the word just stored. -/
theorem storeSeenByNextFetch : Obligations.StoreSeenByNextFetch := by
  intro s a b dst w j hwf hr hpc hd ha hb hdst htarget hsum hj
  have hadd : step s = .next ((s.setCell (s.pc + 4) w).setPc (s.pc + 4)) := by
    rw [step_eq_exec hr hpc hd, exec_add_ok ha hb hdst hsum, htarget]
  have hlt : s.pc + 4 < s.params.memLimit := htarget ▸ State.target_lt hdst
  have hcell : (s.setCell (s.pc + 4) w).cell (s.pc + 4) = w := by rw [State.cell_setCell hwf, if_pos rfl]
  exact ⟨_, hadd, rfl, step_eq_exec hr hlt ((congrArg decode hcell).trans hj)⟩

end Sys2Proof.Machine
end

section
/-! SUPPORT. Proofs of the statements of 30_encoding.md about the decoder and the encoder: which words decode to an
instruction, which have no operation, and what a canonical word decodes to. -/

namespace Sys2Proof

/-! ## Where the mode digits stand -/

section ModeDigits

variable {n k : Nat} {ms : List Mode}

/-- Digits `k`, `k + 1`, … of `n` select the modes `ms`, in order (R62, R66). -/
def ModesFrom (n k : Nat) : List Mode → Prop
  | [] => True
  | m :: ms => digit n k = m.toDigit ∧ ModesFrom n (k + 1) ms

theorem modesFrom_iff :
    ModesFrom n k ms ↔ ∀ (j : Nat) (m : Mode), ms[j]? = some m → digit n (j + k) = m.toDigit := by
  induction ms generalizing k with
  | nil => simp [ModesFrom]
  | cons m ms ih =>
    rw [ModesFrom, ih]
    constructor
    · rintro ⟨hfirst, hrest⟩ (_ | j) m' hm'
      · cases hm'
        rwa [Nat.zero_add]
      · rw [Nat.succ_add_eq_add_succ]
        exact hrest j m' hm'
    · intro h
      refine ⟨by simpa using h 0 m rfl, fun j m' hm' => ?_⟩
      rw [← Nat.succ_add_eq_add_succ]
      exact h (j + 1) m' hm'

theorem Mode.toDigit_lt (m : Mode) : m.toDigit < 10 := by cases m <;> decide

/-- Mode digits written from digit `k` up, above a lower part of `k` digits, are found there (R74). -/
theorem modesFrom_modeDigits {low : Nat} (hlow : low < 10 ^ k) : ModesFrom (low + 10 ^ k * modeDigits ms) k ms := by
  induction ms generalizing k low with
  | nil => trivial
  | cons m ms ih =>
    have hm := m.toDigit_lt
    constructor
    · have hdigit : (low + 10 ^ k * modeDigits (m :: ms)) / 10 ^ k = modeDigits (m :: ms) := by
        rw [Nat.add_mul_div_left _ _ (Nat.pow_pos (by decide)), Nat.div_eq_of_lt hlow, Nat.zero_add]
      rw [digit, hdigit, modeDigits]
      omega
    · have hsplit : low + 10 ^ k * modeDigits (m :: ms) =
          (low + 10 ^ k * m.toDigit) + 10 ^ (k + 1) * modeDigits ms := by
        rw [modeDigits, Nat.pow_succ]
        ring
      have hlow' : low + 10 ^ k * m.toDigit < 10 ^ (k + 1) := by
        have : 10 ^ k * m.toDigit ≤ 10 ^ k * 9 := Nat.mul_le_mul_left _ (by omega)
        rw [Nat.pow_succ]
        omega
      rw [hsplit]
      exact ih hlow'

end ModeDigits

/-! ## Decoders in sequence: what `Except` answers -/

section Except

variable {ε α β : Type} {x : Except ε α}

theorem bind_eq_ok_iff {f : α → Except ε β} {b : β} :
    x >>= f = .ok b ↔ ∃ a, x = .ok a ∧ f a = .ok b := by
  cases x with
  | error e => simp [bind, Except.bind]
  | ok a => simp [bind, Except.bind]

theorem bind_eq_error_iff {f : α → Except ε β} {e : ε} :
    x >>= f = .error e ↔ x = .error e ∨ ∃ a, x = .ok a ∧ f a = .error e := by
  cases x with
  | error e' => simp [bind, Except.bind]
  | ok a => simp [bind, Except.bind]

theorem map_eq_ok_iff {f : α → β} {b : β} :
    x.map f = .ok b ↔ ∃ a, x = .ok a ∧ f a = b := by
  cases x with
  | error e => simp [Except.map]
  | ok a => simp [Except.map]

end Except

/-! ## What the decoder accepts -/

section Accepts

variable {n : Nat} {i : Instr}

theorem threeModes_ok_iff {make : Mode → Mode → Mode → Instr} : threeModes n make = .ok i ↔
    ∃ a b dst, make a b dst = i ∧ dst.writable = true ∧ ModesFrom n 2 [a, b, dst] := by
  simp only [threeModes, bind_eq_ok_iff, readMode_ok, writeMode_ok, Except.ok.injEq]
  constructor
  · rintro ⟨a, ha, b, hb, dst, ⟨hdst, hw⟩, hi⟩
    exact ⟨a, b, dst, hi, hw, ha, hb, hdst, trivial⟩
  · rintro ⟨a, b, dst, hi, hw, ha, hb, hdst, -⟩
    exact ⟨a, ha, b, hb, dst, ⟨hdst, hw⟩, hi⟩

theorem twoModes_ok_iff {make : Mode → Mode → Instr} : twoModes n make = .ok i ↔
    ∃ a b, make a b = i ∧ ModesFrom n 2 [a, b] := by
  simp only [twoModes, bind_eq_ok_iff, readMode_ok, Except.ok.injEq]
  constructor
  · rintro ⟨a, ha, b, hb, hi⟩
    exact ⟨a, b, hi, ha, hb, trivial⟩
  · rintro ⟨a, b, hi, ha, hb, -⟩
    exact ⟨a, ha, b, hb, hi⟩

theorem readMode_map_ok_iff {make : Mode → Instr} : (readMode n 1).map make = .ok i ↔
    ∃ a, make a = i ∧ ModesFrom n 2 [a] := by
  simp only [map_eq_ok_iff, readMode_ok]
  constructor
  · rintro ⟨a, ha, hi⟩
    exact ⟨a, hi, ha, trivial⟩
  · rintro ⟨a, hi, ha, -⟩
    exact ⟨a, ha, hi⟩

theorem writeMode_map_ok_iff {make : Mode → Instr} : (writeMode n 1).map make = .ok i ↔
    ∃ dst, make dst = i ∧ dst.writable = true ∧ ModesFrom n 2 [dst] := by
  simp only [map_eq_ok_iff, writeMode_ok]
  constructor
  · rintro ⟨dst, ⟨hdst, hw⟩, hi⟩
    exact ⟨dst, hi, hw, hdst, trivial⟩
  · rintro ⟨dst, hi, hw, hdst, -⟩
    exact ⟨dst, ⟨hdst, hw⟩, hi⟩

/-- Row by row of the opcode table (R65): the opcode selects the operation, the digits from 2 up its modes. -/
theorem decodeNat_ok_iff :
    decodeNat n = .ok i ↔ n % 100 = i.opcode ∧ i.wellFormed = true ∧ ModesFrom n 2 i.modes := by
  constructor
  · intro h
    unfold decodeNat at h
    split at h
    case h_1 hop => obtain ⟨a, b, dst, rfl, hw, hm⟩ := threeModes_ok_iff.1 h; exact ⟨hop, hw, hm⟩
    case h_2 hop => obtain ⟨a, b, dst, rfl, hw, hm⟩ := threeModes_ok_iff.1 h; exact ⟨hop, hw, hm⟩
    case h_3 hop => obtain ⟨dst, rfl, hw, hm⟩ := writeMode_map_ok_iff.1 h; exact ⟨hop, hw, hm⟩
    case h_4 hop => obtain ⟨a, rfl, hm⟩ := readMode_map_ok_iff.1 h; exact ⟨hop, rfl, hm⟩
    case h_5 hop => obtain ⟨a, b, rfl, hm⟩ := twoModes_ok_iff.1 h; exact ⟨hop, rfl, hm⟩
    case h_6 hop => obtain ⟨a, b, rfl, hm⟩ := twoModes_ok_iff.1 h; exact ⟨hop, rfl, hm⟩
    case h_7 hop => obtain ⟨a, b, dst, rfl, hw, hm⟩ := threeModes_ok_iff.1 h; exact ⟨hop, hw, hm⟩
    case h_8 hop => obtain ⟨a, b, dst, rfl, hw, hm⟩ := threeModes_ok_iff.1 h; exact ⟨hop, hw, hm⟩
    case h_9 hop => obtain ⟨a, rfl, hm⟩ := readMode_map_ok_iff.1 h; exact ⟨hop, rfl, hm⟩
    case h_10 hop => cases h; exact ⟨hop, rfl, trivial⟩
    case h_11 => cases h
  · rintro ⟨hop, hw, hm⟩
    unfold decodeNat
    rw [hop]
    cases i with
    | add a b dst => exact threeModes_ok_iff.2 ⟨a, b, dst, rfl, hw, hm⟩
    | mul a b dst => exact threeModes_ok_iff.2 ⟨a, b, dst, rfl, hw, hm⟩
    | inp dst => exact writeMode_map_ok_iff.2 ⟨dst, rfl, hw, hm⟩
    | out a => exact readMode_map_ok_iff.2 ⟨a, rfl, hm⟩
    | jt a b => exact twoModes_ok_iff.2 ⟨a, b, rfl, hm⟩
    | jf a b => exact twoModes_ok_iff.2 ⟨a, b, rfl, hm⟩
    | lt a b dst => exact threeModes_ok_iff.2 ⟨a, b, dst, rfl, hw, hm⟩
    | eq a b dst => exact threeModes_ok_iff.2 ⟨a, b, dst, rfl, hw, hm⟩
    | arb a => exact readMode_map_ok_iff.2 ⟨a, rfl, hm⟩
    | hlt => rfl

/-- A negative word is rejected with itself as the value (R63). -/
theorem decode_of_neg {w : Word} (h : w.toInt < 0) : decode w = .error (.illegalOpcode w.toInt) := if_pos h

/-- The decoder on a word that is not negative. -/
theorem decode_of_toInt {w : Word} (h : w.toInt = (n : Int)) : decode w = decodeNat n := by
  rw [decode, if_neg (by omega), h, Int.toNat_natCast]

end Accepts

/-- Settles O3: a negative word is rejected, any other is decoded by its opcode and its mode digits. -/
theorem decodeAcceptsExactlyLegalWords : Obligations.DecodeAcceptsExactlyLegalWords := by
  intro w i
  rcases lt_or_ge w.toInt 0 with hneg | hnonneg
  · rw [decode_of_neg hneg]
    exact ⟨nofun, fun ⟨hnonneg, _⟩ => absurd hneg (Int.not_lt.2 hnonneg)⟩
  · rw [decode_of_toInt (Int.toNat_of_nonneg hnonneg).symm, decodeNat_ok_iff, modesFrom_iff]
    exact (and_iff_right hnonneg).symm

/-! ## What the canonical words decode to -/

/-- The canonical word carries its number unchanged, and its two low digits are the opcode. -/
theorem canonicalWord (i : Instr) : Laws.CanonicalWord.Statement i := by
  cases i with
  | add a b dst => exact Laws.CanonicalWord.add a b dst
  | mul a b dst => exact Laws.CanonicalWord.mul a b dst
  | inp dst => exact Laws.CanonicalWord.inp dst
  | out a => exact Laws.CanonicalWord.out a
  | jt a b => exact Laws.CanonicalWord.jt a b
  | jf a b => exact Laws.CanonicalWord.jf a b
  | lt a b dst => exact Laws.CanonicalWord.lt a b dst
  | eq a b dst => exact Laws.CanonicalWord.eq a b dst
  | arb a => exact Laws.CanonicalWord.arb a
  | hlt => exact Laws.CanonicalWord.hlt

/-- Settles O2: the canonical word has the opcode below its mode digits, which are the modes. -/
theorem decodeOfEncode : Obligations.DecodeOfEncode := by
  intro i hw
  obtain ⟨hvalue, -, hop⟩ := canonicalWord i
  have hopcode : i.opcode < 10 ^ 2 := by rw [← hop]; exact Nat.mod_lt _ (by decide)
  rw [decode_of_toInt hvalue, decodeNat_ok_iff]
  exact ⟨hop, hw, modesFrom_modeDigits hopcode⟩

/-! ## Words with no operation -/

section NoOperation

variable {n : Nat} {k : Fin 4} {v : Int}

theorem readMode_ne_illegalOpcode : readMode n k ≠ .error (.illegalOpcode v) :=
  fun h => nomatch (readMode_error h).1

theorem writeMode_ne_illegalOpcode : writeMode n k ≠ .error (.illegalOpcode v) :=
  fun h => nomatch (writeMode_error h).1

theorem threeModes_ne_illegalOpcode {make : Mode → Mode → Mode → Instr} :
    threeModes n make ≠ .error (.illegalOpcode v) := by
  simp [threeModes, bind_eq_error_iff, readMode_ne_illegalOpcode, writeMode_ne_illegalOpcode]

theorem twoModes_ne_illegalOpcode {make : Mode → Mode → Instr} : twoModes n make ≠ .error (.illegalOpcode v) := by
  simp [twoModes, bind_eq_error_iff, readMode_ne_illegalOpcode]

/-- Every row of the opcode table (R65) rejects a word by a mode digit only; the row of no opcode rejects it by its
two low digits (R88). -/
theorem decodeNat_illegalOpcode_iff : decodeNat n = .error (.illegalOpcode v) ↔
    v = (n : Int) % 100 ∧ (n : Int) % 100 ∉ ([1, 2, 3, 4, 5, 6, 7, 8, 9, 99] : List Int) := by
  simp only [List.mem_cons, List.not_mem_nil, or_false]
  constructor
  · intro h
    unfold decodeNat at h
    split at h
    case h_1 | h_2 | h_7 | h_8 => exact absurd h threeModes_ne_illegalOpcode
    case h_3 => exact absurd (map_error h) writeMode_ne_illegalOpcode
    case h_4 | h_9 => exact absurd (map_error h) readMode_ne_illegalOpcode
    case h_5 | h_6 => exact absurd h twoModes_ne_illegalOpcode
    case h_10 => cases h
    case h_11 =>
      cases h
      simp only [imp_false] at *
      omega
  · rintro ⟨rfl, hop⟩
    unfold decodeNat
    split
    case h_11 => rfl
    -- Every other row has an opcode that `hop` excludes.
    all_goals omega

end NoOperation

/-- Settles O4: a negative word is rejected with its value, any other without an opcode with its two low digits. -/
theorem illegalOpcodeExactly : Obligations.IllegalOpcodeExactly := by
  intro w v
  rcases lt_or_ge w.toInt 0 with hneg | hnonneg
  · rw [decode_of_neg hneg, Except.error.injEq, DecodeError.illegalOpcode.injEq]
    constructor
    · exact fun h => .inl ⟨hneg, h.symm⟩
    · rintro (⟨-, h⟩ | ⟨hnonneg, -⟩)
      · exact h.symm
      · exact absurd hneg (Int.not_lt.2 hnonneg)
  · obtain ⟨n, hn⟩ := Int.eq_ofNat_of_zero_le hnonneg
    rw [decode_of_toInt hn, decodeNat_illegalOpcode_iff, hn]
    constructor
    · exact fun h => .inr ⟨Int.natCast_nonneg n, h⟩
    · rintro (⟨hneg, -⟩ | ⟨-, h⟩)
      · exact absurd hneg (Int.not_lt.2 (Int.natCast_nonneg n))
      · exact h

/-! ## Words written out -/

/-- Settles O1: eleven closed words, each decoded by evaluation. -/
theorem specWordsDecode : Obligations.SpecWordsDecode :=
  ⟨by decide, by decide, by decide, by decide, by decide, by decide, by decide, by decide, by decide, by decide,
    by decide⟩

end Sys2Proof
end

section
/-! SUPPORT. Proofs of the statements of 30_encoding.md about operands: how a parameter is resolved in each mode, what
an immediate write parameter does, and what the pseudo-instructions do. -/

namespace Sys2Proof.Machine

open Sys2Proof

/-! ## Resolution in each mode -/

section Resolution

variable {s : State} {k : Fin 4} {m : Mode}

/-- Outside immediate mode the operand is the cell at the effective address (R68). -/
theorem State.operand_eq_cell (hm : m ≠ .immediate) : s.operand k m = s.cell (s.effectiveAddr k m).toNat := by
  cases m with
  | immediate => exact absurd rfl hm
  | position => rfl
  | relative => rfl

/-- A parameter with a cell is readable in immediate mode (R68). -/
theorem State.readable_immediate (h : s.hasParam k) : s.readable k .immediate := ⟨h, fun hm => absurd rfl hm⟩

/-- Position and relative mode read the cell at the effective address, if that is an address (R68). -/
theorem resolveRead_addressed (h : s.hasParam k) (hm : m ≠ .immediate) : resolveRead s k m =
    if 0 ≤ s.effectiveAddr k m ∧ s.effectiveAddr k m < s.params.memLimit
    then .ok (s.cell (s.effectiveAddr k m).toNat) else .error (addressFault k (s.effectiveAddr k m)) := by
  split
  · next he => rw [resolveRead_ok ⟨h, fun _ => he⟩, State.operand_eq_cell hm]
  · next he => exact resolveRead_bad_address h hm he

/-- Position and relative mode write at the effective address, if that is an address (R69). -/
theorem resolveWrite_addressed (h : s.hasParam k) (hm : m ≠ .immediate) : resolveWrite s k m =
    if 0 ≤ s.effectiveAddr k m ∧ s.effectiveAddr k m < s.params.memLimit
    then .ok (s.effectiveAddr k m).toNat else .error (addressFault k (s.effectiveAddr k m)) := by
  split
  · next he => exact resolveWrite_ok ⟨hm, h, he⟩
  · next he => exact resolveWrite_bad_address h he

end Resolution

/-- Settles O6: without its cell a parameter faults; with it, each mode has its own address. -/
theorem readParameterResolution : Obligations.ReadParameterResolution := by
  intro s k
  refine ⟨fun hno m => resolveRead_no_cell hno, fun hcell => ⟨?_, ?_, ?_⟩⟩
  · exact resolveRead_ok (State.readable_immediate hcell)
  · exact resolveRead_addressed hcell (m := .position) (by decide)
  · exact resolveRead_addressed hcell (m := .relative) (by decide)

/-- Settles O7: as O6, the target being the address itself. -/
theorem writeParameterResolution : Obligations.WriteParameterResolution := by
  intro s k
  refine ⟨fun hno m _ => resolveWrite_no_cell hno, fun hcell => ⟨?_, ?_⟩⟩
  · exact resolveWrite_addressed hcell (m := .position) (by decide)
  · exact resolveWrite_addressed hcell (m := .relative) (by decide)

/-! ## An immediate write parameter -/

/-- The mode check comes before the operands (R89). -/
theorem threeOperand_immediate (s : State) (a b : Mode) (alu : Word → Word → Except FaultInfo Word) :
    threeOperand s a b .immediate alu =
      .next (s.raise { code := .illegalAddressingMode, param := 3, value := 1 }) := by
  simp only [threeOperand, checkWriteMode_immediate, bind, Except.bind, finish_error]

theorem execIn_immediate (s : State) :
    execIn .immediate s = .next (s.raise { code := .illegalAddressingMode, param := 1, value := 1 }) := by
  simp only [execIn, checkWriteMode_immediate, bind, Except.bind, finish_error]

/-- Settles O9: both shapes with a write parameter check its mode before anything else (log entry 3). -/
theorem immediateTargetFaults : Obligations.ImmediateTargetFaults := fun s a b =>
  ⟨threeOperand_immediate s a b aluAdd, threeOperand_immediate s a b aluMul,
    threeOperand_immediate s a b fun x y => .ok (aluLess x y),
    threeOperand_immediate s a b fun x y => .ok (aluEqual x y), execIn_immediate s⟩

/-! ## Pseudo-instructions -/

section Pseudo

variable {s : State}

/-- A parameter's cell exists where a later parameter's does. -/
theorem State.hasParam_of_le {j k : Fin 4} (hjk : j ≤ k) (h : s.hasParam k) : s.hasParam j :=
  lt_of_le_of_lt (Nat.add_le_add_left hjk s.pc) h

/-- The state a three-operand instruction leaves holds the result at the target (R43, R91). -/
theorem cell_target_of_commit {x pc : Nat} (hwf : s.mem.wf = true) (v : Word) :
    ((s.setCell x v).setPc pc).cell x = v := by
  rw [State.cell_setPc, State.cell_setCell hwf, if_pos rfl]

/-- `add x, #0, d`: `mov` copies its operand (R76). -/
theorem exec_add_zero {x d : Mode} (hx : s.readable 1 x) (hd : s.targetable 3 d) (hz : s.paramWord 2 = 0) :
    exec (.add x .immediate d) s = .next ((s.setCell (s.target 3 d) (s.operand 1 x)).setPc (s.pc + 4)) := by
  have hzero : s.operand 2 .immediate = 0 := hz
  refine exec_add_ok hx (State.readable_immediate (State.hasParam_of_le (by decide) hd.2.1)) hd ?_
  simp [hzero]

/-- `eq x, #0, d`: `not` compares its operand with 0 (R76). -/
theorem exec_eq_zero {x d : Mode} (hx : s.readable 1 x) (hd : s.targetable 3 d) (hz : s.paramWord 2 = 0) :
    exec (.eq x .immediate d) s =
      .next ((s.setCell (s.target 3 d) (if s.operand 1 x = 0 then 1 else 0)).setPc (s.pc + 4)) := by
  have hzero : s.operand 2 .immediate = 0 := hz
  refine threeOperand_ok hx (State.readable_immediate (State.hasParam_of_le (by decide) hd.2.1)) hd ?_
  rw [hzero, aluEqual]

/-- `jt #1, t`: `jmp` is taken (R76). -/
theorem exec_jt_one {t : Mode} (hp : s.hasParam 1) (ht : s.readable 2 t) (hone : s.paramWord 1 = 1)
    (haddr : s.isAddr (s.operand 2 t).toInt = true) :
    exec (.jt .immediate t) s = .next (s.setPc (s.operand 2 t).toInt.toNat) := by
  have htrue : aluTrue (s.paramWord 1) = true := by rw [hone]; decide
  exact jumpWhen_taken (State.readable_immediate hp) ht htrue haddr

/-- `jt #0, t`: `nop` is not taken (R76). -/
theorem exec_jt_zero {t : Mode} (hp : s.hasParam 1) (ht : s.readable 2 t) (hzero : s.paramWord 1 = 0) :
    exec (.jt .immediate t) s = .next (s.setPc (s.pc + 3)) := by
  have hfalse : aluTrue (s.paramWord 1) = false := by rw [hzero]; decide
  exact jumpWhen_not_taken (State.readable_immediate hp) ht hfalse

end Pseudo

/-- Settles O20: the table's expansions, then the effect of each with the parameter words it stands for; `clr` is `mov`
of the operand 0. -/
theorem pseudoInstructionEffects : Obligations.PseudoInstructionEffects := by
  refine ⟨fun x d t => ⟨rfl, rfl, rfl, rfl, rfl⟩, fun s x d hwf hx hd hz => ⟨?_, ?_, fun hclr => ?_⟩,
    fun s t hp ht => ⟨fun hone hlo hhi => ?_, fun hzero => ?_⟩⟩
  · exact ⟨_, exec_add_zero hx hd hz, cell_target_of_commit hwf _, rfl⟩
  · exact ⟨_, exec_eq_zero hx hd hz, cell_target_of_commit hwf _, rfl⟩
  · have hfirst : s.readable 1 .immediate := State.readable_immediate hx.1
    exact ⟨_, exec_add_zero hfirst hd hz, (cell_target_of_commit hwf _).trans hclr⟩
  · exact exec_jt_one hp ht hone (State.isAddr_iff.2 ⟨hlo, hhi⟩)
  · exact exec_jt_zero hp ht hzero

end Sys2Proof.Machine
end

section
/-! SUPPORT. Proofs of the statements of 40_engine.md about the decoder: which parameter an illegal mode digit is
reported for. -/

namespace Sys2Proof

open Sys2Proof.Machine

/-! ## Illegal mode digits -/

section IllegalMode

variable {n : Nat} {k : Fin 4} {v : Int}

/-- The digits of a word's parameters from `p` up are rejected at parameter `k` with digit `v`: the parameters before it
have legal digits, `k` has not (R67, R89). -/
def RejectsMode (n : Nat) (k : Fin 4) (v : Int) : Nat → List Bool → Prop
  | _, [] => False
  | p, write :: kinds =>
    (¬ legalModeDigit write (digit n (p + 1)) ∧ k.val = p ∧ v = (digit n (p + 1) : Nat)) ∨
      (legalModeDigit write (digit n (p + 1)) ∧ RejectsMode n k v (p + 1) kinds)

theorem rejectsMode_iff {p : Nat} {kinds : List Bool} : RejectsMode n k v p kinds ↔
    ∃ (j : Nat) (write : Bool), kinds[j]? = some write ∧ k.val = j + p ∧
      v = (digit n (j + p + 1) : Nat) ∧ ¬ legalModeDigit write (digit n (j + p + 1)) ∧
      ∀ (j' : Nat) (write' : Bool), j' < j → kinds[j']? = some write' →
        legalModeDigit write' (digit n (j' + p + 1)) := by
  induction kinds generalizing p with
  | nil => simp [RejectsMode]
  | cons write kinds ih =>
    rw [RejectsMode, ih]
    have hshift (j : Nat) : j + 1 + p = j + (p + 1) := by omega
    constructor
    · rintro (⟨hbad, hk, hv⟩ | ⟨hgood, j, write₁, hj, hk, hv, hbad, hbefore⟩)
      · rw [← Nat.zero_add p] at hbad hk hv
        exact ⟨0, write, rfl, hk, hv, hbad, fun j' _ hj' => absurd hj' (Nat.not_lt_zero j')⟩
      · rw [← hshift] at hk hv hbad
        refine ⟨j + 1, write₁, hj, hk, hv, hbad, ?_⟩
        rintro (_ | j') write' hj' hkind
        · cases hkind
          rwa [Nat.zero_add]
        · rw [hshift]
          exact hbefore j' write' (Nat.lt_of_succ_lt_succ hj') hkind
    · rintro ⟨_ | j, write₁, hj, hk, hv, hbad, hbefore⟩
      · cases hj
        rw [Nat.zero_add] at hk hv hbad
        exact .inl ⟨hbad, hk, hv⟩
      · rw [hshift] at hk hv hbad
        refine .inr ⟨?_, j, write₁, hj, hk, hv, hbad, fun j' write' hj' hkind => ?_⟩
        · simpa only [Nat.zero_add] using hbefore 0 write (Nat.succ_pos j) rfl
        · rw [← hshift]
          exact hbefore (j' + 1) write' (Nat.succ_lt_succ hj') hkind

/-- A read parameter has a mode exactly when its digit is legal (R66, R67). -/
theorem exists_readMode_ok_iff : (∃ m, readMode n k = .ok m) ↔ legalModeDigit false (digit n (k.val + 1)) := by
  simp only [readMode_ok]
  constructor
  · rintro ⟨m, hm⟩
    rw [hm]
    cases m <;> decide
  · rintro (h | h | ⟨h, -⟩)
    · exact ⟨.position, h⟩
    · exact ⟨.relative, h⟩
    · exact ⟨.immediate, h⟩

/-- A write parameter has a mode exactly when its digit is legal (R67). -/
theorem exists_writeMode_ok_iff : (∃ m, writeMode n k = .ok m) ↔ legalModeDigit true (digit n (k.val + 1)) := by
  simp only [writeMode_ok]
  constructor
  · rintro ⟨m, hm, hw⟩
    rw [hm]
    cases m with
    | position => decide
    | immediate => cases hw
    | relative => decide
  · rintro (h | h | ⟨-, h⟩)
    · exact ⟨.position, h, rfl⟩
    · exact ⟨.relative, h, rfl⟩
    · cases h

/-- A read parameter is rejected exactly for an illegal digit, which is the value (R67, R89). -/
theorem readMode_illegalMode_iff {p : Fin 4} : readMode n p = .error (.illegalMode k v) ↔
    ¬ legalModeDigit false (digit n (p.val + 1)) ∧ k.val = p.val ∧ v = (digit n (p.val + 1) : Nat) := by
  rw [← exists_readMode_ok_iff, ← Fin.ext_iff]
  cases h : readMode n p with
  | ok m => simp
  | error e => simp [(readMode_error h).1, eq_comm]

/-- A write parameter is rejected exactly for an illegal digit, which is the value (R67, R89). -/
theorem writeMode_illegalMode_iff {p : Fin 4} : writeMode n p = .error (.illegalMode k v) ↔
    ¬ legalModeDigit true (digit n (p.val + 1)) ∧ k.val = p.val ∧ v = (digit n (p.val + 1) : Nat) := by
  rw [← exists_writeMode_ok_iff, ← Fin.ext_iff]
  cases h : writeMode n p with
  | ok m => simp
  | error e => simp [(writeMode_error h).1, eq_comm]

section InSequence

variable {α : Type} {p : Fin 4} {kinds : List Bool} {f : Mode → Except DecodeError α}

/-- A read parameter, then the parameters after it. -/
theorem readMode_bind_illegalMode_iff
    (hf : ∀ m, f m = .error (.illegalMode k v) ↔ RejectsMode n k v (p.val + 1) kinds) :
    readMode n p >>= f = .error (.illegalMode k v) ↔ RejectsMode n k v p.val (false :: kinds) := by
  rw [bind_eq_error_iff, readMode_illegalMode_iff, RejectsMode, ← exists_readMode_ok_iff]
  simp only [hf, exists_and_right]

/-- A write parameter, then the parameters after it. -/
theorem writeMode_bind_illegalMode_iff
    (hf : ∀ m, f m = .error (.illegalMode k v) ↔ RejectsMode n k v (p.val + 1) kinds) :
    writeMode n p >>= f = .error (.illegalMode k v) ↔ RejectsMode n k v p.val (true :: kinds) := by
  rw [bind_eq_error_iff, writeMode_illegalMode_iff, RejectsMode, ← exists_writeMode_ok_iff]
  simp only [hf, exists_and_right]

/-- With no parameter left an instruction is answered. -/
theorem ok_illegalMode_iff {a : α} {p : Nat} :
    (Except.ok a : Except DecodeError α) = .error (.illegalMode k v) ↔ RejectsMode n k v p [] :=
  iff_of_false nofun id

end InSequence

theorem threeModes_illegalMode_iff {make : Mode → Mode → Mode → Instr} :
    threeModes n make = .error (.illegalMode k v) ↔ RejectsMode n k v 1 [false, false, true] :=
  readMode_bind_illegalMode_iff fun _ => readMode_bind_illegalMode_iff fun _ =>
    writeMode_bind_illegalMode_iff fun _ => ok_illegalMode_iff

theorem twoModes_illegalMode_iff {make : Mode → Mode → Instr} :
    twoModes n make = .error (.illegalMode k v) ↔ RejectsMode n k v 1 [false, false] :=
  readMode_bind_illegalMode_iff fun _ => readMode_bind_illegalMode_iff fun _ => ok_illegalMode_iff

theorem readMode_map_illegalMode_iff {make : Mode → Instr} :
    (readMode n 1).map make = .error (.illegalMode k v) ↔ RejectsMode n k v 1 [false] :=
  readMode_bind_illegalMode_iff (f := fun a => .ok (make a)) fun _ => ok_illegalMode_iff

theorem writeMode_map_illegalMode_iff {make : Mode → Instr} :
    (writeMode n 1).map make = .error (.illegalMode k v) ↔ RejectsMode n k v 1 [true] :=
  writeMode_bind_illegalMode_iff (f := fun dst => .ok (make dst)) fun _ => ok_illegalMode_iff

/-- Row by row of the opcode table (R65): a word is rejected for the digits of its operation's parameters. -/
theorem decodeNat_illegalMode_iff : decodeNat n = .error (.illegalMode k v) ↔
    ∃ kinds, paramKinds (n % 100) = some kinds ∧ RejectsMode n k v 1 kinds := by
  have hrow {op : Nat} {kinds : List Bool} (hk : paramKinds op = some kinds) :
      (∃ kinds', paramKinds op = some kinds' ∧ RejectsMode n k v 1 kinds') ↔ RejectsMode n k v 1 kinds := by
    simp [hk]
  unfold decodeNat
  split
  case h_1 hop | h_2 hop | h_7 hop | h_8 hop => rw [hop, hrow rfl, threeModes_illegalMode_iff]
  case h_3 hop => rw [hop, hrow rfl, writeMode_map_illegalMode_iff]
  case h_4 hop | h_9 hop => rw [hop, hrow rfl, readMode_map_illegalMode_iff]
  case h_5 hop | h_6 hop => rw [hop, hrow rfl, twoModes_illegalMode_iff]
  case h_10 hop => simp [hop, paramKinds, RejectsMode]
  case h_11 => simp [paramKinds]

end IllegalMode

/-- Settles O5: a negative word is rejected as such, any other for the first illegal digit of its parameters. -/
theorem lowestIllegalModeReported : Obligations.LowestIllegalModeReported := by
  intro w k v
  rcases lt_or_ge w.toInt 0 with hneg | hnonneg
  · rw [decode_of_neg hneg]
    exact ⟨nofun, fun ⟨hnonneg, _⟩ => absurd hneg (Int.not_lt.2 hnonneg)⟩
  · rw [decode_of_toInt (Int.toNat_of_nonneg hnonneg).symm, decodeNat_illegalMode_iff, and_iff_right hnonneg]
    simp only [rejectsMode_iff]

end Sys2Proof
end

section
/-! SUPPORT. Proofs of the statements of 40_engine.md about the engine and the host's commands: a step of an ADVANCE and
how it ends, operands that do not resolve, a hang, ADVANCE, PUSH_INPUT, PATCH and PEEK. -/

namespace Sys2Proof.Machine

open Sys2Proof

/-! ## A step of the engine -/

/-- Settles O21: the fetch reads and decodes the word at `pc`. -/
theorem stepRunsDecodedInstruction : Obligations.StepRunsDecodedInstruction :=
  fun _ _ hr hpc hd => step_eq_exec hr hpc hd

theorem State.fetchedWord_of_not_lt {s : State} (h : ¬ s.pc < s.params.memLimit) : s.fetchedWord = 0 :=
  if_neg fun haddr => h (Int.ofNat_lt.1 (State.isAddr_iff.1 haddr).2)

/-- Settles O22: the fetch faults, and the record's word is 0 where `pc` is no address. -/
theorem fetchOutsideMemoryFaults : Obligations.FetchOutsideMemoryFaults := by
  intro s hr hpc
  have hstep : step s = .next (s.raise (addressFault 0 s.pc)) := by
    rw [step_running hr, engineStep, fetch_no_cell hpc]
  refine ⟨_, hstep, rfl, ?_, rfl, rfl⟩
  rw [State.raise_fault, State.recordOf, State.fetchedWord_of_not_lt hpc]
  rfl

theorem engineStep_total (s : State) : ∃ t, engineStep s = .next t := by
  unfold engineStep
  cases fetch s with
  | error f => exact ⟨_, rfl⟩
  | ok i => exact exec_total i s

/-- Settles O27: the engine and the host's commands always answer. -/
theorem stepAlwaysAnswers : Obligations.StepAlwaysAnswers := by
  intro s
  by_cases hr : s.status = .running
  · rw [step_running hr]
    exact engineStep_total s
  · exact ⟨_, step_idle hr⟩

/-! ## Operands that do not resolve -/

section ParamFault

variable {s : State} {k : Fin 4} {m a b dst : Mode} {f : FaultInfo}

theorem State.paramFault_no_cell (h : ¬ s.hasParam k) : s.paramFault k m = some (addressFault k (s.paramAddr k)) :=
  if_neg h

theorem State.paramFault_bad_address (h : s.hasParam k) (hm : m ≠ .immediate)
    (he : ¬ (0 ≤ s.effectiveAddr k m ∧ s.effectiveAddr k m < s.params.memLimit)) :
    s.paramFault k m = some (addressFault k (s.effectiveAddr k m)) := by
  rw [State.paramFault, if_pos h, if_neg (not_or.2 ⟨hm, he⟩)]
  rfl

/-- A readable parameter has no fault. -/
theorem State.paramFault_readable (h : s.readable k m) : s.paramFault k m = none := by
  rw [State.paramFault, if_pos h.1, if_pos (Decidable.or_iff_not_imp_left.2 h.2)]

/-- A read parameter that does not resolve raises its fault (R68). -/
theorem resolveRead_eq_error_iff (f : FaultInfo) : resolveRead s k m = .error f ↔ s.paramFault k m = some f := by
  rcases resolveRead_cases s k m with ⟨hr, h⟩ | ⟨hp, h⟩ | ⟨hp, hm, he, h⟩ <;> rw [h]
  · simp [State.paramFault_readable hr]
  · simp [State.paramFault_no_cell hp]
  · simp [State.paramFault_bad_address hp hm he]

/-- A write parameter that does not resolve raises its fault (R69). -/
theorem resolveWrite_eq_error_iff (hm : m ≠ .immediate) (f : FaultInfo) :
    resolveWrite s k m = .error f ↔ s.paramFault k m = some f := by
  rcases resolveWrite_cases s k m hm with ⟨⟨_, hp, he⟩, h⟩ | ⟨hp, h⟩ | ⟨hp, he, h⟩ <;> rw [h]
  · simp [State.paramFault_readable ⟨hp, fun _ => he⟩]
  · simp [State.paramFault_no_cell hp]
  · simp [State.paramFault_bad_address hp hm he]

/-- The fault of the first of `ps` that does not resolve (R90). -/
def State.firstFault (s : State) (ps : List (Fin 4 × Mode)) : Option FaultInfo :=
  ps.findSome? fun p => s.paramFault p.1 p.2

theorem State.firstParamFault_eq (s : State) (i : Instr) :
    s.firstParamFault i = s.firstFault (([1, 2, 3] : List (Fin 4)).zip i.modes) := rfl

theorem State.firstFault_cons_of_none {ps : List (Fin 4 × Mode)} (h : s.paramFault k m = none) :
    s.firstFault ((k, m) :: ps) = s.firstFault ps := List.findSome?_cons_of_isNone (by simp [h])

theorem State.firstFault_cons_of_some {ps : List (Fin 4 × Mode)} (h : s.paramFault k m = some f) :
    s.firstFault ((k, m) :: ps) = some f := by
  rw [← h]
  exact List.findSome?_cons_of_isSome (by simp [h])

/-- A parameter, then the parameters after it: the first fault ends resolution (R90). -/
theorem bind_of_firstFault {α β : Type} {ps : List (Fin 4 × Mode)} {x : Except FaultInfo α}
    {next : α → Except FaultInfo β} (hx : ∀ g, x = .error g ↔ s.paramFault k m = some g)
    (hnext : s.firstFault ps = some f → ∀ a, next a = .error f) (h : s.firstFault ((k, m) :: ps) = some f) :
    x >>= next = .error f := by
  cases x with
  | error g =>
    have hfault : s.paramFault k m = some g := (hx g).1 rfl
    rw [State.firstFault_cons_of_some hfault, Option.some.injEq] at h
    rw [← h]
    rfl
  | ok a =>
    have hnone : s.paramFault k m = none := Option.eq_none_iff_forall_ne_some.2 fun g hg => nomatch (hx g).2 hg
    rw [State.firstFault_cons_of_none hnone] at h
    exact hnext h a

/-- No parameter is left, and so no fault. -/
theorem of_firstFault_nil {P : Prop} (h : s.firstFault [] = some f) : P := by cases h

theorem threeOperand_of_firstFault {alu : Word → Word → Except FaultInfo Word} (hdst : dst ≠ .immediate)
    (h : s.firstFault [(1, a), (2, b), (3, dst)] = some f) : threeOperand s a b dst alu = .next (s.raise f) := by
  have hmode : checkWriteMode 3 dst = pure () := checkWriteMode_ok hdst
  rw [threeOperand, hmode, pure_bind, ← finish_error]
  refine congrArg (finish s) (bind_of_firstFault resolveRead_eq_error_iff (fun h2 _ => ?_) h)
  refine bind_of_firstFault resolveRead_eq_error_iff (fun h3 _ => ?_) h2
  exact bind_of_firstFault (resolveWrite_eq_error_iff hdst) of_firstFault_nil h3

theorem jumpWhen_of_firstFault {condition : Word → Bool} (h : s.firstFault [(1, a), (2, b)] = some f) :
    jumpWhen s a b condition = .next (s.raise f) := by
  rw [jumpWhen, ← finish_error]
  refine congrArg (finish s) (bind_of_firstFault resolveRead_eq_error_iff (fun h2 _ => ?_) h)
  exact bind_of_firstFault resolveRead_eq_error_iff of_firstFault_nil h2

theorem execIn_of_firstFault (hdst : dst ≠ .immediate) (h : s.firstFault [(1, dst)] = some f) :
    execIn dst s = .next (s.raise f) := by
  have hmode : checkWriteMode 1 dst = pure () := checkWriteMode_ok hdst
  rw [execIn, hmode, pure_bind, ← finish_error]
  exact congrArg (finish s) (bind_of_firstFault (resolveWrite_eq_error_iff hdst) of_firstFault_nil h)

theorem execOut_of_firstFault (h : s.firstFault [(1, a)] = some f) : execOut a s = .next (s.raise f) := by
  rw [execOut, ← finish_error]
  exact congrArg (finish s) (bind_of_firstFault resolveRead_eq_error_iff of_firstFault_nil h)

theorem execArb_of_firstFault (h : s.firstFault [(1, a)] = some f) : execArb a s = .next (s.raise f) := by
  rw [execArb, ← finish_error]
  exact congrArg (finish s) (bind_of_firstFault resolveRead_eq_error_iff of_firstFault_nil h)

end ParamFault

/-- Settles O8: each shape of instruction resolves its parameters in order; `hlt` has none. -/
theorem operandFaultsInOrder : Obligations.OperandFaultsInOrder := by
  intro i s f hw h
  rw [State.firstParamFault_eq] at h
  cases i with
  | add a b dst | mul a b dst | lt a b dst | eq a b dst =>
    exact threeOperand_of_firstFault (Mode.writable_iff.1 hw) h
  | inp dst => exact execIn_of_firstFault (Mode.writable_iff.1 hw) h
  | out a => exact execOut_of_firstFault h
  | jt a b | jf a b => exact jumpWhen_of_firstFault h
  | arb a => exact execArb_of_firstFault h
  | hlt => cases h

/-! ## How a step of an ADVANCE ends -/

section AdvanceStep

variable {s t : State} {i : Instr}

/-- What a step of a running machine can be to its ADVANCE (R83). -/
inductive AdvanceStep (s : State) : State → Prop where
  /-- `Continue`. -/
  | goesOn {t : State} (hstatus : t.status = s.status) (hresponses : t.responses = s.responses) : AdvanceStep s t
  /-- A fault is taken (R157). -/
  | fault (f : FaultInfo) : AdvanceStep s (s.raise f)
  /-- `out` suspends (R111). -/
  | output {a : Mode} (hd : decode (s.cell s.pc) = .ok (.out a)) :
      AdvanceStep s ((s.setPc (s.pc + 2)).conclude (.output (s.operand 1 a)))
  /-- `in` suspends on an empty queue under `Block` (R110). -/
  | needInput {dst : Mode} (hd : decode (s.cell s.pc) = .ok (.inp dst)) (hq : s.queue = []) (hp : s.policy = .block) :
      AdvanceStep s (s.conclude .needInput)
  /-- `hlt` (R141). -/
  | halted : AdvanceStep s (s.conclude .halted)

theorem Commits.advanceStep (hd : decode (s.cell s.pc) = .ok i) (h : Commits s t i) : AdvanceStep s t := by
  cases i with
  | add a b dst | mul a b dst => obtain ⟨-, -, -, -, rfl⟩ := h; exact .goesOn rfl rfl
  | lt a b dst | eq a b dst => obtain ⟨-, -, -, rfl⟩ := h; exact .goesOn rfl rfl
  | inp dst =>
    obtain ⟨-, ⟨v, rest, -, rfl⟩ | ⟨-, -, rfl⟩ | ⟨hq, hp, rfl⟩⟩ := h
    · exact .goesOn rfl rfl
    · exact .goesOn rfl rfl
    · exact .needInput hd hq hp
  | out a => obtain ⟨-, rfl⟩ := h; exact .output hd
  | jt a b | jf a b => obtain ⟨-, -, ⟨-, rfl⟩ | ⟨-, -, rfl⟩⟩ := h <;> exact .goesOn rfl rfl
  | arb a => obtain ⟨-, -, rfl⟩ := h; exact .goesOn rfl rfl
  | hlt => subst h; exact .halted

theorem advanceStep_of_step (hr : s.status = .running) (h : step s = .next t) : AdvanceStep s t := by
  rw [step_running hr] at h
  rcases engineStep_cases h with ⟨f, -, rfl⟩ | ⟨-, i, hd, hc⟩
  · exact .fault f
  · exact hc.advanceStep hd

end AdvanceStep

/-- Settles O28: going on responds nothing, each way to end the ADVANCE responds once. -/
theorem advanceRespondsOnceAtItsEnd : Obligations.AdvanceRespondsOnceAtItsEnd := by
  intro s t hr hstep
  cases advanceStep_of_step hr hstep with
  | goesOn hstatus hresponses => exact .inl ⟨hstatus.trans hr, hresponses⟩
  | fault | output | needInput | halted => exact .inr ⟨nofun, _, rfl⟩

/-- Settles O29, by induction on the number of steps: a first step that goes on leaves the rest of the run, one that
ends the ADVANCE is the last. -/
theorem advanceRunYieldsOneResponse : Obligations.AdvanceRunYieldsOneResponse := by
  intro n
  induction n with
  | zero =>
    intro s t hr _ hrun
    cases hrun
    exact .inl ⟨hr, rfl⟩
  | succ n ih =>
    intro s t hr hbefore hrun
    obtain ⟨u, hstep⟩ := stepAlwaysAnswers s
    rw [run_succ hstep] at hrun
    rcases advanceRespondsOnceAtItsEnd s u hr hstep with ⟨hur, hresponses⟩ | ⟨hur, hresponse⟩
    · rw [← hresponses]
      refine ih u t hur (fun k x hk hx => hbefore (k + 1) x (Nat.succ_lt_succ hk) ?_) hrun
      rwa [run_succ hstep]
    · have hlast : n = 0 := by
        by_contra hn
        exact hur (hbefore 1 u (by omega) (run_succ hstep))
      subst hlast
      cases hrun
      exact .inr ⟨hur, hresponse⟩

/-- Settles O30: of the ends of a step only `output` and `needInput` set STATUS to Ready. -/
theorem onlyOutputAndBlockedInputSuspend : Obligations.OnlyOutputAndBlockedInputSuspend := by
  intro s t hr hstep hready
  cases advanceStep_of_step hr hstep with
  | goesOn hstatus => rw [hstatus, hr] at hready; cases hready
  | fault | halted => cases hready
  | @output a hd => exact .inl ⟨a, hd, rfl⟩
  | @needInput dst hd hq hp => exact .inr ⟨dst, hd, hq, hp, rfl⟩

/-! ## A hang -/

/-- Settles O37: the jump sets `pc` to the value it has. -/
theorem selfJumpHangs : Obligations.SelfJumpHangs := by
  intro s a b hr hpc hd ha hb hcond htarget
  have htaken : aluTrue (s.operand 1 a) = true := decide_eq_true fun h => hcond (by rw [h]; rfl)
  have haddr : s.isAddr (s.operand 2 b).toInt = true := by
    rw [htarget]
    exact State.isAddr_iff.2 ⟨Int.natCast_nonneg _, Int.ofNat_lt.2 hpc⟩
  calc step s = jumpWhen s a b aluTrue := step_eq_exec hr hpc hd
    _ = .next (s.setPc (s.operand 2 b).toInt.toNat) := jumpWhen_taken ha hb htaken haddr
    _ = .next s := by rw [htarget]; rfl

/-! ## Host commands -/

section HostCommands

variable {s : State} {rest : List Command} {v : Word}

theorem State.queueHasRoom_iff :
    s.queueHasRoom = true ↔ ∀ c, s.params.queueCapacity = some c → s.queue.length < c := by
  unfold State.queueHasRoom
  cases s.params.queueCapacity with
  | none => simp
  | some c => simp

/-- PUSH_INPUT with room (R93). -/
theorem step_pushInput (hr : s.status ≠ .running) (hc : s.commands = .pushInput v :: rest)
    (hroom : s.queueHasRoom = true) :
    step s = .next { s with commands := rest, queue := s.queue ++ [v], responses := s.responses ++ [.ok] } := by
  rw [step_command hr hc]
  exact congrArg _ (hostPushInput_room (s := { s with commands := rest }) hroom)

/-- PUSH_INPUT at capacity (R93). -/
theorem step_pushInput_full (hr : s.status ≠ .running) (hc : s.commands = .pushInput v :: rest)
    (hfull : s.queueHasRoom = false) :
    step s = .next { s with commands := rest, responses := s.responses ++ [.rejected .queueFull] } := by
  rw [step_command hr hc]
  exact congrArg _ (hostPushInput_full (s := { s with commands := rest }) hfull)

/-- PATCH at an address (R94). -/
theorem step_patch {a : Int} (hr : s.status ≠ .running) (hc : s.commands = .patch a v :: rest)
    (haddr : s.isAddr a = true) :
    step s = .next { s.setCell a.toNat v with commands := rest, responses := s.responses ++ [.ok] } := by
  rw [step_command hr hc]
  exact congrArg _ (hostPatch_ok (s := { s with commands := rest }) haddr)

/-- PATCH at a non-address (R94). -/
theorem step_patch_rejected {a : Int} (hr : s.status ≠ .running) (hc : s.commands = .patch a v :: rest)
    (haddr : s.isAddr a = false) :
    step s = .next { s with commands := rest, responses := s.responses ++ [.rejected .badAddress] } := by
  rw [step_command hr hc]
  exact congrArg _ (hostPatch_rejected (s := { s with commands := rest }) haddr)

/-- ADVANCE of a Ready machine (R83). -/
theorem step_advance_ready (hready : s.status = .ready) (hc : s.commands = .advance :: rest) :
    step s = .next { s with commands := rest, status := .running } := by
  rw [step_command (by simp [hready]) hc]
  simp [hostCommand, hostAdvance, hready, State.setStatus]

/-- ADVANCE of a Halted machine (R84). -/
theorem step_advance_halted (hhalted : s.status = .halted) (hc : s.commands = .advance :: rest) :
    step s = .next { s with commands := rest, responses := s.responses ++ [.halted] } := by
  rw [step_command (by simp [hhalted]) hc]
  simp [hostCommand, hostAdvance, hhalted, State.respond]

/-- ADVANCE of a Faulted machine (R85). -/
theorem step_advance_faulted (hfaulted : s.status = .faulted) (hc : s.commands = .advance :: rest) :
    step s = .next { s with commands := rest, responses := s.responses ++ [.fault s.fault] } := by
  rw [step_command (by simp [hfaulted]) hc]
  simp [hostCommand, hostAdvance, hfaulted, State.respond]

/-- PEEK (R95) does not look at the commands still to issue. -/
theorem step_peek {selector : Selector} (hr : s.status ≠ .running) (hc : s.commands = .peek selector :: rest) :
    step s = .next { s with commands := rest, responses := s.responses ++ [peekAnswer s selector] } := by
  rw [step_command hr hc]
  cases selector <;> rfl

end HostCommands

/-- Settles O40: the command by STATUS. -/
theorem advanceByStatus : Obligations.AdvanceByStatus := fun _ _ hc =>
  ⟨fun h => step_advance_ready h hc, fun h => step_advance_halted h hc, fun h => step_advance_faulted h hc⟩

/-- Settles O41: an idle step with no command. -/
theorem idleHoldsState : Obligations.IdleHoldsState := fun _ hr hc => step_hold hr hc

/-- Settles O43: the queue has room exactly below its capacity. -/
theorem pushInputAppends : Obligations.PushInputAppends := by
  intro s v rest hr hc
  refine ⟨fun hroom => step_pushInput hr hc (State.queueHasRoom_iff.2 hroom), fun c hcap hle => ?_⟩
  refine step_pushInput_full hr hc (Bool.eq_false_iff.2 fun hroom => ?_)
  exact Nat.not_lt.2 hle (State.queueHasRoom_iff.1 hroom c hcap)

/-- Settles O44: the check of the address decides; the write changes the one cell. -/
theorem patchWritesOneCell : Obligations.PatchWritesOneCell := by
  intro s a v rest hwf hr hc
  refine ⟨fun hlo hhi => ?_, fun hno => ?_⟩
  · refine ⟨_, step_patch hr hc (State.isAddr_iff.2 ⟨hlo, hhi⟩), ?_, fun x hx => ?_, rfl, rfl, rfl⟩
    · exact (State.cell_setCell hwf).trans (if_pos rfl)
    · exact (State.cell_setCell hwf).trans (if_neg hx)
  · exact step_patch_rejected hr hc (Bool.eq_false_iff.2 fun haddr => hno (State.isAddr_iff.1 haddr))

theorem peekNonAddressReason_cases :
    peekNonAddressReason = .badAddress ∨ peekNonAddressReason = .badSelector := by
  unfold peekNonAddressReason
  split
  · exact .inr rfl
  · exact .inl rfl

theorem peekAnswer_address {s : State} {a : Nat} (h : a < s.params.memLimit) :
    peekAnswer s (.memory a) = .peeked (.word (s.cell a)) :=
  if_pos (State.isAddr_iff.2 ⟨Int.natCast_nonneg a, Int.ofNat_lt.2 h⟩)

theorem peekAnswer_not_address {s : State} {a : Int} (h : ¬ (0 ≤ a ∧ a < s.params.memLimit)) :
    peekAnswer s (.memory a) = .rejected peekNonAddressReason :=
  if_neg fun haddr => h (State.isAddr_iff.1 haddr)

/-- Settles O45: the answer is `peekAnswer`, which is one line a selector. -/
theorem peekOnlyAnswers : Obligations.PeekOnlyAnswers := by
  intro s selector rest hr hc
  refine ⟨_, step_peek hr hc, ?_, ?_, ?_, ?_, ?_, ?_, ?_, ?_, ?_⟩
  · rintro a rfl ha
    exact peekAnswer_address ha
  · rintro a rfl ha
    rw [peekAnswer_not_address ha]
    exact peekNonAddressReason_cases.imp (congrArg _) (congrArg _)
  all_goals rintro rfl; rfl

/-! ## An input resumed -/

section Input

variable {s : State} {dst : Mode}

/-- `in` on an empty queue under `Block` suspends (R110). -/
theorem step_input_block (hr : s.status = .running) (hpc : s.pc < s.params.memLimit)
    (hd : decode (s.cell s.pc) = .ok (.inp dst)) (hdst : s.targetable 1 dst) (hq : s.queue = [])
    (hp : s.policy = .block) : step s = .next (s.conclude .needInput) :=
  (step_eq_exec hr hpc hd).trans (execIn_block hdst hq hp)

/-- `in` with a value waiting stores it (R110). -/
theorem step_input_front {v : Word} {rest : List Word} (hr : s.status = .running) (hpc : s.pc < s.params.memLimit)
    (hd : decode (s.cell s.pc) = .ok (.inp dst)) (hdst : s.targetable 1 dst) (hq : s.queue = v :: rest) :
    step s = .next (((s.setQueue rest).setCell (s.target 1 dst) v).setPc (s.pc + 2)) :=
  (step_eq_exec hr hpc hd).trans (execIn_front hdst hq)

end Input

/-- Settles O46: the suspension, the host's two commands and the input again, one step each. -/
theorem blockedInputResumes : Obligations.BlockedInputResumes := by
  intro s dst v rest hwf hr hpc hd hdst hq hp hcap hc
  have hroom : (s.conclude .needInput).queueHasRoom = true := by
    rw [State.queueHasRoom_iff]
    intro c hcapacity
    rw [State.conclude_queue, hq]
    exact Nat.pos_of_ne_zero fun hzero => hcap (hzero ▸ hcapacity)
  have hblock := step_input_block hr hpc hd hdst hq hp
  have hpush := step_pushInput (s := s.conclude .needInput) nofun hc hroom
  refine ⟨_, _, _, _, hblock, hpush, step_advance_ready rfl rfl,
    step_input_front rfl hpc hd hdst (congrArg (· ++ [v]) hq), ?_, fun x hx => ?_, rfl, rfl, rfl, rfl, ?_⟩
  · exact (State.cell_setCell hwf).trans (if_pos rfl)
  · exact (State.cell_setCell hwf).trans (if_neg hx)
  · simp

end Sys2Proof.Machine
end

section
/-! SUPPORT. Proofs of the statements of 41_arith.md: what `add` and `mul` write, and when they overflow. -/

namespace Sys2Proof.Machine

open Sys2Proof

/-! ## A three-operand instruction whose parameters resolve -/

section ThreeOperand

variable {s : State} {a b dst : Mode} {alu : Word → Word → Except FaultInfo Word}

/-- A result of the ALU is stored at the target, and nothing but that cell and `pc` changes (R51, R91). -/
theorem threeOperand_writes_result {r : Word} (hwf : s.mem.wf = true) (ha : s.readable 1 a) (hb : s.readable 2 b)
    (hdst : s.targetable 3 dst) (hr : alu (s.operand 1 a) (s.operand 2 b) = .ok r) :
    ∃ t, threeOperand s a b dst alu = .next t ∧ t.cell (s.target 3 dst) = r ∧
      (∀ x, x ≠ s.target 3 dst → t.cell x = s.cell x) ∧
      t.pc = s.pc + 4 ∧ { t with mem := s.mem, pc := s.pc } = s :=
  ⟨_, threeOperand_ok ha hb hdst hr, cell_target_of_commit hwf r,
    fun _ hx => (State.cell_setCell hwf).trans (if_neg hx), rfl, rfl⟩

/-- An ALU that narrows the exact result `v` stores `v` if it is a word, and overflows before the write if not
(R92, R155). -/
theorem threeOperand_writes_exact_or_overflows {v : Int} (hwf : s.mem.wf = true) (ha : s.readable 1 a)
    (hb : s.readable 2 b) (hdst : s.targetable 3 dst) (hv : alu (s.operand 1 a) (s.operand 2 b) = narrow v 0) :
    (fits v = true → ∃ t, threeOperand s a b dst alu = .next t ∧ (t.cell (s.target 3 dst)).toInt = v ∧
      (∀ x, x ≠ s.target 3 dst → t.cell x = s.cell x) ∧
      t.pc = s.pc + 4 ∧ { t with mem := s.mem, pc := s.pc } = s) ∧
    (fits v = false →
      threeOperand s a b dst alu = .next (s.raise { code := .arithmeticOverflow, param := 0, value := 0 })) := by
  refine ⟨fun hfits => ?_, fun hnot => ?_⟩
  · obtain ⟨t, hnext, htarget, hframe⟩ :=
      threeOperand_writes_result hwf ha hb hdst (hv.trans (narrow_ok hfits))
    exact ⟨t, hnext, htarget ▸ toInt_toWord hfits, hframe⟩
  · exact threeOperand_alu_error ha hb hdst (hv.trans (narrow_error hnot))

end ThreeOperand

/-! ## `add` and `mul` -/

/-- Settles O10: the ALU of `add` narrows the exact sum. -/
theorem addWritesExactSum : Obligations.AddWritesExactSum :=
  fun _ _ _ _ hwf ha hb hdst => threeOperand_writes_exact_or_overflows (alu := aluAdd) hwf ha hb hdst rfl

/-- Settles O11: the ALU of `mul` narrows the exact product. -/
theorem mulWritesExactProduct : Obligations.MulWritesExactProduct :=
  fun _ _ _ _ hwf ha hb hdst => threeOperand_writes_exact_or_overflows (alu := aluMul) hwf ha hb hdst rfl

end Sys2Proof.Machine
end

section
/-! SUPPORT. Proofs of the statements of 42_io.md: what `in` takes and writes, and what `out` yields. -/

namespace Sys2Proof.Machine

open Sys2Proof

/-! ## `in` -/

section Input

variable {s : State} {dst : Mode}

/-- With a value waiting, removal, write and `pc` update are one next state, and nothing else changes (R110). -/
theorem execIn_moves_front {v : Word} {rest : List Word} (hwf : s.mem.wf = true) (hdst : s.targetable 1 dst)
    (hq : s.queue = v :: rest) :
    ∃ t, execIn dst s = .next t ∧ t.queue = rest ∧ t.cell (s.target 1 dst) = v ∧
      (∀ x, x ≠ s.target 1 dst → t.cell x = s.cell x) ∧
      t.pc = s.pc + 2 ∧ { t with mem := s.mem, pc := s.pc, queue := s.queue } = s :=
  ⟨_, execIn_front hdst hq, rfl, cell_target_of_commit (s := s.setQueue rest) hwf v,
    fun _ hx => (State.cell_setCell (s := s.setQueue rest) hwf).trans (if_neg hx), rfl, rfl⟩

/-- On an empty queue `DefaultZero` stores 0, and nothing but the target cell and `pc` changes (R110). -/
theorem execIn_writes_zero (hwf : s.mem.wf = true) (hdst : s.targetable 1 dst) (hq : s.queue = [])
    (hp : s.policy = .defaultZero) :
    ∃ t, execIn dst s = .next t ∧ t.cell (s.target 1 dst) = 0 ∧
      (∀ x, x ≠ s.target 1 dst → t.cell x = s.cell x) ∧
      t.pc = s.pc + 2 ∧ { t with mem := s.mem, pc := s.pc } = s :=
  ⟨_, execIn_defaultZero hdst hq hp, cell_target_of_commit hwf 0,
    fun _ hx => (State.cell_setCell hwf).trans (if_neg hx), rfl, rfl⟩

end Input

/-- Settles O14: the queue decides first, and on an empty one the policy. -/
theorem inputByQueueAndPolicy : Obligations.InputByQueueAndPolicy := fun _ _ hwf hdst =>
  ⟨fun _ _ hq => execIn_moves_front hwf hdst hq,
    fun hq hp => execIn_fatal hdst hq hp,
    fun hq hp => execIn_writes_zero hwf hdst hq hp,
    fun hq hp => execIn_block hdst hq hp⟩

/-! ## `out` -/

/-- Settles O15: a parameter that resolves leaves `out` one outcome. -/
theorem outputYieldsOperand : Obligations.OutputYieldsOperand := fun _ _ ha => execOut_ok ha

end Sys2Proof.Machine
end

section
/-! SUPPORT. Proofs of the statements of 43_branch.md: where `jt` and `jf` go. -/

namespace Sys2Proof.Machine

open Sys2Proof

/-! ## The conditions -/

theorem aluFalse_eq_true_iff {w : Word} : aluFalse w = true ↔ w.toInt = 0 := by
  have hzero : (0 : Word).toInt = 0 := BitVec.toInt_zero
  rw [aluFalse, decide_eq_true_iff, ← BitVec.toInt_inj, hzero]

theorem aluFalse_eq_false_iff {w : Word} : aluFalse w = false ↔ w.toInt ≠ 0 := by
  rw [← Bool.not_eq_true, aluFalse_eq_true_iff]

/-- The two conditions are each other's negation (R121). -/
theorem aluTrue_eq_not_aluFalse (w : Word) : aluTrue w = !aluFalse w := decide_not

theorem aluTrue_eq_true_iff {w : Word} : aluTrue w = true ↔ w.toInt ≠ 0 := by
  rw [aluTrue_eq_not_aluFalse, Bool.not_eq_true', aluFalse_eq_false_iff]

theorem aluTrue_eq_false_iff {w : Word} : aluTrue w = false ↔ w.toInt = 0 := by
  rw [aluTrue_eq_not_aluFalse, Bool.not_eq_false', aluFalse_eq_true_iff]

/-! ## A jump whose parameters resolve -/

/-- Only a taken jump checks its target, and before `pc` is written (R120, D5). -/
theorem jumpWhen_by_condition {s : State} {a b : Mode} {condition : Word → Bool} (ha : s.readable 1 a)
    (hb : s.readable 2 b) :
    (condition (s.operand 1 a) = true → 0 ≤ (s.operand 2 b).toInt → (s.operand 2 b).toInt < s.params.memLimit →
      jumpWhen s a b condition = .next (s.setPc (s.operand 2 b).toInt.toNat)) ∧
    (condition (s.operand 1 a) = true →
      ¬ (0 ≤ (s.operand 2 b).toInt ∧ (s.operand 2 b).toInt < s.params.memLimit) →
      jumpWhen s a b condition = .next (s.raise (addressFault 2 (s.operand 2 b).toInt))) ∧
    (condition (s.operand 1 a) = false → jumpWhen s a b condition = .next (s.setPc (s.pc + 3))) := by
  refine ⟨fun htaken hlo hhi => ?_, fun htaken hno => ?_, fun hnot => jumpWhen_not_taken ha hb hnot⟩
  · exact jumpWhen_taken ha hb htaken (State.isAddr_iff.2 ⟨hlo, hhi⟩)
  · exact jumpWhen_bad_target ha hb htaken (Bool.eq_false_iff.2 fun haddr => hno (State.isAddr_iff.1 haddr))

/-- Settles O16: the condition of `jt` is that the operand is not 0. -/
theorem jumpIfTrueByOperand : Obligations.JumpIfTrueByOperand := by
  intro s a b ha hb
  rw [← aluTrue_eq_true_iff, ← aluTrue_eq_false_iff]
  exact jumpWhen_by_condition ha hb

/-- Settles O17: the condition of `jf` is that the operand is 0. -/
theorem jumpIfFalseByOperand : Obligations.JumpIfFalseByOperand := by
  intro s a b ha hb
  rw [← aluFalse_eq_true_iff, ← aluFalse_eq_false_iff]
  exact jumpWhen_by_condition ha hb

end Sys2Proof.Machine
end

section
/-! SUPPORT. Proofs of the statements of 44_compare.md: what `lt` and `eq` write. -/

namespace Sys2Proof.Machine

open Sys2Proof

/-! ## The results -/

theorem toInt_one_or_zero (p : Prop) [Decidable p] : (if p then 1 else 0 : Word).toInt = if p then 1 else 0 := by
  split
  · decide
  · decide

theorem toInt_aluLess (x y : Word) : (aluLess x y).toInt = if x.toInt < y.toInt then 1 else 0 :=
  toInt_one_or_zero _

/-- Two words are equal exactly when their signed values are (R131). -/
theorem toInt_aluEqual (x y : Word) : (aluEqual x y).toInt = if x.toInt = y.toInt then 1 else 0 := by
  simp only [aluEqual, toInt_one_or_zero, BitVec.toInt_inj]

/-! ## A comparison whose parameters resolve -/

/-- An ALU that always has a result stores it and cannot overflow (R130, R131). -/
theorem threeOperand_writes_value {s : State} {a b dst : Mode} {compare : Word → Word → Word} {v : Int}
    (hwf : s.mem.wf = true) (ha : s.readable 1 a) (hb : s.readable 2 b) (hdst : s.targetable 3 dst)
    (hv : (compare (s.operand 1 a) (s.operand 2 b)).toInt = v) :
    ∃ t, threeOperand s a b dst (fun x y => .ok (compare x y)) = .next t ∧
      (t.cell (s.target 3 dst)).toInt = v ∧ (∀ x, x ≠ s.target 3 dst → t.cell x = s.cell x) ∧
      t.pc = s.pc + 4 ∧ { t with mem := s.mem, pc := s.pc } = s := by
  obtain ⟨t, hnext, htarget, hframe⟩ :=
    threeOperand_writes_result (alu := fun x y => .ok (compare x y)) hwf ha hb hdst rfl
  exact ⟨t, hnext, htarget ▸ hv, hframe⟩

/-- Settles O12: the ALU of `lt` compares signed values. -/
theorem lessThanWritesOneOrZero : Obligations.LessThanWritesOneOrZero :=
  fun _ _ _ _ hwf ha hb hdst => threeOperand_writes_value hwf ha hb hdst (toInt_aluLess _ _)

/-- Settles O13: the ALU of `eq` compares whole words. -/
theorem equalsWritesOneOrZero : Obligations.EqualsWritesOneOrZero :=
  fun _ _ _ _ hwf ha hb hdst => threeOperand_writes_value hwf ha hb hdst (toInt_aluEqual _ _)

end Sys2Proof.Machine
end

section
/-! SUPPORT. Proofs of the statements of 45_base_halt.md: what `arb` writes to `rb`, and how `hlt` ends an ADVANCE. -/

namespace Sys2Proof.Machine

open Sys2Proof

/-! ## `arb` -/

/-- A sum that is a word becomes `rb`, and nothing but `rb` and `pc` changes (R140). -/
theorem execArb_adds_operand {s : State} {a : Mode} (ha : s.readable 1 a)
    (hfits : fits (s.rb.toInt + (s.operand 1 a).toInt) = true) :
    ∃ t, execArb a s = .next t ∧ t.rb.toInt = s.rb.toInt + (s.operand 1 a).toInt ∧
      t.pc = s.pc + 2 ∧ { t with rb := s.rb, pc := s.pc } = s :=
  ⟨_, execArb_ok ha hfits, toInt_toWord hfits, rfl, rfl⟩

/-- Settles O18: whether the exact sum is a word decides. -/
theorem adjustBaseAddsOperand : Obligations.AdjustBaseAddsOperand := fun _ _ ha =>
  ⟨fun hfits => execArb_adds_operand ha hfits, fun hnot => execArb_overflow ha hnot⟩

/-! ## `hlt` -/

/-- Settles O19: `hlt` checks nothing and ends as `halted`, which writes STATUS and the response. -/
theorem haltEndsAdvance : Obligations.HaltEndsAdvance := fun s => finish_ok s s .halted

end Sys2Proof.Machine
end

section
/-! SUPPORT. Proofs of the statements of 60_exceptions.md: which fault a step takes, and what a step that faults leaves as
it was. -/

namespace Sys2Proof.Machine

open Sys2Proof

/-! ## The fault of a fetch -/

section FetchFault

variable {s : State} {e : DecodeError}

/-- `pc` is no address (R87). -/
theorem step_no_cell (hr : s.status = .running) (hpc : ¬ s.pc < s.params.memLimit) :
    step s = .next (s.raise (addressFault 0 s.pc)) := by
  rw [step_running hr, engineStep, fetch_no_cell hpc]

/-- The decoder rejects the word at `pc` (R88, R89). -/
theorem step_rejected (hr : s.status = .running) (hpc : s.pc < s.params.memLimit)
    (hd : decode (s.cell s.pc) = .error e) : step s = .next (s.raise (faultOfDecode e)) := by
  rw [step_running hr, engineStep, fetch_rejected hpc hd]

end FetchFault

/-- The record of a fault taken where `pc` is an address. -/
theorem State.raise_fault_of_lt {s : State} {f : FaultInfo} (hpc : s.pc < s.params.memLimit) : (s.raise f).fault =
    { code := f.code, pc := s.pc, word := s.cell s.pc, param := f.param, value := f.value } :=
  congrArg State.fault (faultEntryWritesRecord s f hpc)

/-- Settles O23: the step enters the rejection's fault, at an address. -/
theorem rejectedWordFaults : Obligations.RejectedWordFaults := fun _ hr hpc =>
  ⟨fun _ hd => ⟨_, step_rejected hr hpc hd, rfl, State.raise_fault_of_lt hpc, rfl, rfl⟩,
    fun _ _ hd => ⟨_, step_rejected hr hpc hd, rfl, State.raise_fault_of_lt hpc, rfl, rfl⟩⟩

/-! ## The operation's own check -/

section OwnCheck

variable {s : State} {k : Fin 4} {m a b dst : Mode}

theorem State.paramFault_eq_none_iff : s.paramFault k m = none ↔ s.readable k m := by
  refine ⟨fun h => ?_, State.paramFault_readable⟩
  rcases resolveRead_cases s k m with ⟨hread, -⟩ | ⟨hp, -⟩ | ⟨hp, hm, he, -⟩
  · exact hread
  · rw [State.paramFault_no_cell hp] at h; cases h
  · rw [State.paramFault_bad_address hp hm he] at h; cases h

/-- No parameter faults exactly when every one of them resolves (R90). -/
theorem State.firstFault_eq_none_iff {ps : List (Fin 4 × Mode)} :
    s.firstFault ps = none ↔ ∀ p ∈ ps, s.readable p.1 p.2 := by
  simp only [State.firstFault, List.findSome?_eq_none_iff, State.paramFault_eq_none_iff]

/-- What resolves in a mode legal for a write parameter is a target (R69). -/
theorem State.targetable_of_readable (hm : m ≠ .immediate) (h : s.readable k m) : s.targetable k m :=
  ⟨hm, h.1, h.2 hm⟩

theorem threeOperand_overflow {alu : Word → Word → Except FaultInfo Word} {v : Int} (hdst : dst ≠ .immediate)
    (h : s.firstFault [(1, a), (2, b), (3, dst)] = none) (hv : alu (s.operand 1 a) (s.operand 2 b) = narrow v 0)
    (hnot : fits v = false) :
    threeOperand s a b dst alu = .next (s.raise { code := .arithmeticOverflow, param := 0, value := 0 }) := by
  have hread := State.firstFault_eq_none_iff.1 h
  exact threeOperand_alu_error (hread (1, a) (by simp)) (hread (2, b) (by simp))
    (State.targetable_of_readable hdst (hread (3, dst) (by simp))) (hv.trans (narrow_error hnot))

theorem jumpWhen_no_address {condition : Word → Bool} (h : s.firstFault [(1, a), (2, b)] = none)
    (htaken : condition (s.operand 1 a) = true)
    (hno : ¬ (0 ≤ (s.operand 2 b).toInt ∧ (s.operand 2 b).toInt < s.params.memLimit)) :
    jumpWhen s a b condition = .next (s.raise (addressFault 2 (s.operand 2 b).toInt)) := by
  have hread := State.firstFault_eq_none_iff.1 h
  obtain ⟨-, hfault, -⟩ :=
    jumpWhen_by_condition (condition := condition) (hread (1, a) (by simp)) (hread (2, b) (by simp))
  exact hfault htaken hno

theorem execArb_sum_no_word (h : s.firstFault [(1, a)] = none)
    (hnot : fits (s.rb.toInt + (s.operand 1 a).toInt) = false) :
    execArb a s = .next (s.raise { code := .arithmeticOverflow, param := 1, value := 0 }) :=
  execArb_overflow (State.firstFault_eq_none_iff.1 h (1, a) (by simp)) hnot

theorem execIn_underflow (hdst : dst ≠ .immediate) (h : s.firstFault [(1, dst)] = none) (hq : s.queue = [])
    (hp : s.policy = .fatal) :
    execIn dst s = .next (s.raise { code := .inputUnderflow, param := 1, value := 0 }) :=
  execIn_fatal (State.targetable_of_readable hdst (State.firstFault_eq_none_iff.1 h (1, dst) (by simp))) hq hp

end OwnCheck

/-! ## The order of the faults -/

/-- The decoder answers well-formed instructions only (R67). -/
theorem wellFormed_of_decode {w : Word} {i : Instr} (h : decode w = .ok i) : i.wellFormed = true := by
  obtain ⟨-, -, hw, -⟩ := (decodeAcceptsExactlyLegalWords w i).1 h
  exact hw

/-- Settles O24: the fetch, then the decoder, then the parameters in order, then the operation's own check. -/
theorem faultPriority : Obligations.FaultPriority := by
  intro s hr
  refine ⟨step_no_cell hr, fun hpc => ⟨fun v hd => step_rejected hr hpc hd, fun k v hd => step_rejected hr hpc hd,
    fun i f hd hfault => ?parameter, fun i hd hnone => ?own⟩⟩
  case parameter =>
    rw [step_eq_exec hr hpc hd]
    exact operandFaultsInOrder i s f (wellFormed_of_decode hd) hfault
  case own =>
    have hw : i.wellFormed = true := wellFormed_of_decode hd
    rw [step_eq_exec hr hpc hd]
    refine ⟨?add, ?mul, ?arb, ?inp, ?jump⟩
    case add =>
      rintro a b dst rfl hnot
      exact threeOperand_overflow (alu := aluAdd) (Mode.writable_iff.1 hw) hnone rfl hnot
    case mul =>
      rintro a b dst rfl hnot
      exact threeOperand_overflow (alu := aluMul) (Mode.writable_iff.1 hw) hnone rfl hnot
    case arb =>
      rintro a rfl hnot
      exact execArb_sum_no_word hnone hnot
    case inp =>
      rintro dst rfl hq hp
      exact execIn_underflow (Mode.writable_iff.1 hw) hnone hq hp
    case jump =>
      rintro a b (⟨rfl, htaken⟩ | ⟨rfl, htaken⟩) hno
      · exact jumpWhen_no_address (condition := aluTrue) hnone (decide_eq_true htaken) hno
      · exact jumpWhen_no_address (condition := aluFalse) hnone (decide_eq_true htaken) hno

/-! ## Faults are precise -/

/-- An instruction's own effect never ends in STATUS Faulted. -/
theorem Commits.status_ne_faulted {s t : State} {i : Instr} (hs : s.status ≠ .faulted) (h : Commits s t i) :
    t.status ≠ .faulted := by
  cases i with
  | add a b dst | mul a b dst => obtain ⟨-, -, -, -, rfl⟩ := h; exact hs
  | lt a b dst | eq a b dst => obtain ⟨-, -, -, rfl⟩ := h; exact hs
  | inp dst =>
    obtain ⟨-, ⟨v, rest, -, rfl⟩ | ⟨-, -, rfl⟩ | ⟨-, -, rfl⟩⟩ := h
    · exact hs
    · exact hs
    · exact nofun
  | out a => obtain ⟨-, rfl⟩ := h; exact nofun
  | jt a b | jf a b => obtain ⟨-, -, ⟨-, rfl⟩ | ⟨-, -, rfl⟩⟩ := h <;> exact hs
  | arb a => obtain ⟨-, -, rfl⟩ := h; exact hs
  | hlt => subst h; exact nofun

/-- Settles O26: a step that ends Faulted took a fault with a code, in the state it began in. -/
theorem faultsArePrecise : Obligations.FaultsArePrecise := by
  intro s t hr hstep hfaulted
  rw [step_running hr] at hstep
  rcases engineStep_cases hstep with ⟨f, ⟨hcode, -⟩, rfl⟩ | ⟨-, i, -, hc⟩
  · exact ⟨hcode, rfl, rfl, rfl⟩
  · exact absurd hfaulted (hc.status_ne_faulted (by simp [hr]))

end Sys2Proof.Machine
end

section
/-! SUPPORT. Proofs of the statements of 70_reset_and_hazards.md: what LOAD sets, and when it is refused. -/

namespace Sys2Proof.Machine

open Sys2Proof

/-! ## When LOAD is accepted -/

/-- Three of the four 2-bit values name a policy (R28). -/
theorem Policy.exists_ofCode_iff (c : BitVec 2) : (∃ q, Policy.ofCode c = some q) ↔ c ≠ 3 := by
  rw [← Option.isSome_iff_exists]
  revert c
  decide

/-- A policy is named by its own code only (R28). -/
theorem Policy.code_of_ofCode {c : BitVec 2} {q : Policy} (h : Policy.ofCode c = some q) : q.code = c := by
  unfold Policy.ofCode at h
  split_ifs at h with h0 h1 h2
  all_goals cases h; subst c; rfl

/-- LOAD's checks pass exactly for a program of words that fits memory and a legal policy value (R181). -/
theorem exists_loadable_iff {s : State} {p : List Int} {c : BitVec 2} :
    (∃ q, loadable s p c = some q) ↔
      (∀ v ∈ p, wMin ≤ v ∧ v ≤ wMax) ∧ p.length ≤ s.params.memLimit ∧ c ≠ 3 := by
  simp only [loadable_eq_some, fits_iff, exists_and_left, Policy.exists_ofCode_iff]

/-! ## What LOAD leaves -/

section Load

variable {s : State} {p : List Int} {c : BitVec 2} {rest : List Command}

/-- LOAD accepted (R32, R180). -/
theorem step_load {q : Policy} (hr : s.status ≠ .running) (hc : s.commands = .load p c :: rest)
    (hload : loadable s p c = some q) :
    step s = .next { s with
      mem := Memory.image (p.map toWord), pc := 0, rb := 0, queue := [], status := .ready,
      fault := FaultRecord.clear, policy := q, commands := rest, responses := s.responses ++ [.ok] } := by
  have hload' : loadable { s with commands := rest } p c = some q := hload
  rw [step_command hr hc, hostCommand, hostLoad, hload']
  rfl

/-- LOAD refused (R181). -/
theorem step_load_rejected (hr : s.status ≠ .running) (hc : s.commands = .load p c :: rest)
    (hload : loadable s p c = none) :
    step s = .next { s with commands := rest, responses := s.responses ++ [.rejected .badProgram] } := by
  rw [step_command hr hc]
  exact congrArg _ (hostLoad_rejected (s := { s with commands := rest }) hload)

end Load

/-- A cell of the program's image holds the program's element (R41). -/
theorem toInt_read_image_toWord {p : List Int} {a : Nat} {v : Int} (hfits : ∀ v ∈ p, wMin ≤ v ∧ v ≤ wMax)
    (h : p[a]? = some v) : ((Memory.image (p.map toWord)).read a).toInt = v := by
  have hread : (Memory.image (p.map toWord)).read a = toWord v := by
    rw [Memory.read_image, List.getD_eq_getElem?_getD, List.getElem?_map, h, Option.map_some, Option.getD_some]
  rw [hread, toInt_toWord (fits_iff.2 (hfits v (List.mem_of_getElem? h)))]

/-- A cell beyond the program holds 0 (R41). -/
theorem Memory.read_image_beyond {p : List Word} {a : Nat} (h : p.length ≤ a) : (Memory.image p).read a = 0 := by
  rw [Memory.read_image, List.getD_eq_default _ _ h, Memory.unlisted]

/-- Settles O42: the checks decide, and memory after an accepted LOAD is the program's image. -/
theorem loadResetsEverything : Obligations.LoadResetsEverything := by
  intro s program policy rest hr hc
  refine ⟨fun hfits hlen hpol => ?accepted, fun hbad => ?refused⟩
  case accepted =>
    obtain ⟨q, hload⟩ := exists_loadable_iff.2 ⟨hfits, hlen, hpol⟩
    obtain ⟨-, -, hq⟩ := loadable_eq_some.1 hload
    exact ⟨_, step_load hr hc hload, fun _ _ hv => toInt_read_image_toWord hfits hv,
      fun _ ha => Memory.read_image_beyond (by rwa [List.length_map]),
      rfl, rfl, rfl, rfl, rfl, Policy.code_of_ofCode hq, rfl, rfl, rfl⟩
  case refused =>
    refine step_load_rejected hr hc (Option.eq_none_iff_forall_ne_some.2 fun q hload => ?_)
    exact hbad (exists_loadable_iff.1 ⟨q, hload⟩)

end Sys2Proof.Machine
end
